-- ==== Sys2Proof/Word.lean ====
section
/-! DEFINITION. The three word widths of the engine: the byte of the byte-indexed spaces (R50), the channel word (R8, `CMD_W`) and
the lane (R20). All values are unsigned (R9); bit 0 is the least significant bit (R9). -/

namespace Sys2Proof

/-- One element of the spaces `BUF`, `S` and `P` (R50). -/
abbrev Byte := BitVec 8

/-- One command, payload or response word on the channel, `CMD_W` = 32 bits (R8, R80). -/
abbrev Word := BitVec 32

/-- One lane of the state, `W` = 64 bits (R7, R20). -/
abbrev Lane := BitVec 64

/-- The lane array `A[0..24]`: 25 lanes, 1600 bits, whatever the digest size (R20). -/
abbrev Lanes := Vector Lane 25

end Sys2Proof
end

