-- ==== Sys2Proof/Machine/Bytes.lean ====
section
/-! DEFINITION. The notation's primitives on bytes and lanes (R11, R12): byte selection, the little-endian `MemRead`, and `ROL`. -/

namespace Sys2Proof
namespace Machine

/-- `(v >> (8*k)) & 0xFF` (R12, R52, R86). -/
def byteAt (v k : Nat) : Byte :=
  BitVec.ofNat 8 (v >>> (8 * k))

/-- `MemRead(space, a, n)`: `sum over k of space[a+k] * 256^k` (R12), little-endian (R51). -/
def memRead (space : Nat → Byte) (a n : Nat) : Nat :=
  ((List.range n).map fun k => (space (a + k)).toNat * 256 ^ k).sum

/-- `ROL(x, n)` (R11): the zero rotation is handled apart, so that no shift by 64 is ever evaluated. -/
def rol (x : Lane) (n : Nat) : Lane :=
  let m := n % 64
  if m = 0 then x else (x <<< m) ||| (x >>> (64 - m))

end Machine
end Sys2Proof
end

