-- ==== Sys2Proof/Config.lean ====
section
/-! DEFINITION. What is fixed for the machine: the parameters of R7 (fixed by the document) and R8 (left open by the document, given
the value this hardware takes), and the one free value of the model (notes/assumptions/1.md). -/

namespace Sys2Proof
namespace Config

/-- `W`: lane width in bits (R7). -/
def laneWidth : Nat := 64

/-- `NLANES`: number of lanes (R7). -/
def laneCount : Nat := 25

/-- `B`: state width in bits, `NLANES * W` (R7). -/
def stateWidth : Nat := 1600

/-- `NROUNDS`: rounds per permutation (R7). -/
def roundCount : Nat := 24

/-- `DSIZES`: the legal digest sizes in bits (R7). -/
def digestSizes : List Nat := [224, 256, 384, 512]

/-- The parameters the document leaves open (R8). -/
structure Params where
  /-- `PAD_BYTE`: the first padding byte FINALIZE writes at the cursor. -/
  padByte : Byte
  /-- `CMD_W`: width of a command or response word in bits. -/
  cmdWidth : Nat
  /-- `PAYLOAD_WORDS_MAX`: the largest number of payload words of one UPDATE. -/
  payloadWordsMax : Nat
  /-- `BUF_PHYS`: the physical size of the pending buffer in bytes. -/
  bufPhys : Nat
  /-- `T_CMD`: the latency of a command; the spec gives it no value and no rule uses one. -/
  commandLatency : Option Nat
  deriving DecidableEq, Repr

/-- This hardware's values (R8): original Keccak padding, 32-bit words, 1024 payload words, a 144-byte buffer, no latency. -/
def kse1 : Params :=
  { padByte := 0x01, cmdWidth := 32, payloadWordsMax := 1024, bufPhys := 144, commandLatency := none }

/-- FREE VALUE (R26, U6): what byte `index` of the pending buffer holds once a block absorption has left it unspecified.
`draw` numbers the absorptions of one engine, so that no two of that engine's are taken to leave the same bytes. Nothing constrains it
(notes/assumptions/1.md). DESIGN CHOICE: two engines, or two runs, whose counts are equal read the same free values; the spec relates
them in no way (notes/assumptions/14.md). -/
opaque staleBufByte (draw index : Nat) : Byte

end Config
end Sys2Proof
end

