-- ==== Sys2Proof/Syntax.lean ====
section
/-! DEFINITION. The command set KSE-1: the transaction a host presents (R80), the five commands it can decode to (R82 to R85), the
reasons a transaction decodes to none of them (R90), and the abstract syntax of the assembler (R95, R96). -/

namespace Sys2Proof

/-- A transaction `W[0], ..., W[k-1]`, `k >= 1` (R80). The command word stands apart from the payload words, so that a transaction is
never empty; `k = 1 + payload.length`, and the channel delivers `k` (R91). -/
structure Transaction where
  /-- `W[0]`. -/
  command : Word
  /-- `W[1], ..., W[k-1]`. -/
  payload : List Word
  deriving DecidableEq, Repr

/-- The five host commands (R82), one constructor per row of spec/opcode_table.json. -/
inductive Instr where
  /-- `NEW`, format N (R83): `DSIZE`, the digest size in bits. -/
  | new (dsize : BitVec 10)
  /-- `UPDATE`, format U (R84): `OFFSET`, `LENGTH` and the payload words. -/
  | update (offset length : BitVec 14) (payload : List Word)
  /-- `FINALIZE`, format Z (R85). -/
  | finalize
  /-- `RESET`, format Z (R85). -/
  | reset
  /-- `STATUS`, format Z (R85). -/
  | status
  deriving DecidableEq, Repr

/-- Why a transaction decodes to ILLEGAL (R90). -/
inductive IllegalReason where
  /-- `OPC` is 0 or 6 to 15. -/
  | reservedOpcode
  /-- A NEW, FINALIZE, RESET or STATUS word with a reserved bit set. -/
  | reservedBits
  /-- A NEW, FINALIZE, RESET or STATUS transaction with payload words. -/
  | strayPayload
  /-- An UPDATE with more than `PAYLOAD_WORDS_MAX` payload words. -/
  | payloadTooLong
  deriving DecidableEq, Repr

/-- The three ways R95 writes `<data>`: a quoted ASCII string, a list of bytes, a repeated byte. -/
inductive AsmData where
  | ascii (chars : List Char)
  | bytes (values : List Byte)
  | repeated (count : Nat) (value : Byte)
  deriving DecidableEq, Repr

/-- One line of the assembler: the core forms of R95 and the pseudo-instructions of R96. -/
inductive AsmLine where
  | new (dsize : BitVec 10)
  | update (offset length : BitVec 14) (data : AsmData)
  | finalize
  | reset
  | status
  /-- `.word`: a raw transaction. -/
  | word (first : Word) (rest : List Word)
  | absorb (data : AsmData)
  | hash (dsize : BitVec 10) (data : AsmData)
  | new224
  | new256
  | new384
  | new512
  deriving DecidableEq, Repr

end Sys2Proof
end

