-- ==== Sys2Proof/WellFormed.lean ====
section
/-! DEFINITION. Which terms of `Instr` a transaction can carry. The field widths of R83 and R84 are in the types; the one check left
is the payload limit of R84. -/

namespace Sys2Proof

/-- An UPDATE carries at most `PAYLOAD_WORDS_MAX` payload words (R84); the other commands carry none (R83, R85) and have no other
condition. -/
def WellFormed : Instr → Bool
  | .new _ => true
  | .update _ _ payload => decide (payload.length ≤ Config.kse1.payloadWordsMax)
  | .finalize => true
  | .reset => true
  | .status => true

end Sys2Proof
end

