-- ==== Sys2Proof/Decode.lean ====
section
/-! DEFINITION. The decoder of R89, total on every transaction and rejecting by name (R90); after it the encoder (R83 to R86) and the
assembler (R95, R96). -/

namespace Sys2Proof

/-- `OPC`, bits 31:28 of the command word (R81). -/
def opcodeOf (w : Word) : BitVec 4 :=
  w.extractLsb' 28 4

/-- The name under which R90 refuses a transaction that is none of the five commands. -/
def illegalReason (t : Transaction) : IllegalReason :=
  let opc := (opcodeOf t.command).toNat
  if opc = 0 ∨ 6 ≤ opc then .reservedOpcode
  else if opc = 2 then .payloadTooLong
  else if opc = 1 ∧ t.command &&& 0x0FFFFC00 ≠ 0 then .reservedBits
  else if opc ≠ 1 ∧ t.command &&& 0x0FFFFFFF ≠ 0 then .reservedBits
  else .strayPayload

/-- `decode(W, k)` of R89, its tests in the order written there. It looks at `W[0]` and `k` alone; an error is R89's ILLEGAL. -/
def decode (t : Transaction) : Except IllegalReason Instr :=
  if t.command &&& 0xFFFFFC00 = 0x10000000 ∧ t.payload.length = 0 then
    .ok (.new (t.command.extractLsb' 0 10))
  else if t.command &&& 0xF0000000 = 0x20000000 ∧ t.payload.length ≤ Config.kse1.payloadWordsMax then
    .ok (.update (t.command.extractLsb' 0 14) (t.command.extractLsb' 14 14) t.payload)
  else if t.command = 0x30000000 ∧ t.payload.length = 0 then .ok .finalize
  else if t.command = 0x40000000 ∧ t.payload.length = 0 then .ok .reset
  else if t.command = 0x50000000 ∧ t.payload.length = 0 then .ok .status
  else .error (illegalReason t)

/-- The transaction of a command: formats N, U and Z (R83, R84, R85). -/
def encode : Instr → Transaction
  | .new dsize => ⟨0x10000000 ||| dsize.setWidth 32, []⟩
  | .update offset length payload =>
    ⟨0x20000000 ||| (length.setWidth 32 <<< 14) ||| offset.setWidth 32, payload⟩
  | .finalize => ⟨0x30000000, []⟩
  | .reset => ⟨0x40000000, []⟩
  | .status => ⟨0x50000000, []⟩

/-- The transaction whose bits are `w`, numbered as spec/opcode_table.json numbers them: the command word is bits 31..0, and each
further 32 bits of `nbits` are one payload word (notes/assumptions/6.md). -/
def tableTransaction (nbits w : Nat) : Transaction :=
  ⟨BitVec.ofNat 32 w, (List.range ((nbits - 1) / 32)).map fun k => BitVec.ofNat 32 (w >>> (32 * (k + 1)))⟩

/-- What the decoder reads from a row of the opcode table. -/
def decodeTableWord (nbits w : Nat) : Option Instr :=
  match decode (tableTransaction nbits w) with
  | .ok i => some i
  | .error _ => none

/-- The bytes of an assembler's `<data>` (R95). -/
def dataBytes : AsmData → List Byte
  | .ascii chars => chars.map fun c => BitVec.ofNat 8 c.toNat
  | .bytes values => values
  | .repeated count value => List.replicate count value

/-- One payload word from four bytes, the first in bits 7:0 (R86). -/
def packWord (b0 b1 b2 b3 : Byte) : Word :=
  b3 ++ b2 ++ b1 ++ b0

/-- The assembler's packing: zero bytes are appended up to a multiple of 4, then four bytes go to each payload word (R95, R86). -/
def packBytes : List Byte → List Word
  | [] => []
  | [b0] => [packWord b0 0 0 0]
  | [b0, b1] => [packWord b0 b1 0 0]
  | [b0, b1, b2] => [packWord b0 b1 b2 0]
  | b0 :: b1 :: b2 :: b3 :: rest => packWord b0 b1 b2 b3 :: packBytes rest

/-- The pieces into which the assembler splits the data of an ABSORB: `n` bytes each, the last at most `n`; `fuel` bounds their number.
DESIGN CHOICE: R96 bounds a piece and does not say where the data is cut; the model fills every piece but the last
(notes/assumptions/15.md). -/
def splitEvery (n : Nat) : Nat → List Byte → List (List Byte)
  | 0, _ => []
  | fuel + 1, l => if l.length ≤ n then [l] else l.take n :: splitEvery n fuel (l.drop n)

/-- `UPDATE 0, <byte length of data>, <data>` (R95). -/
def updateOf (data : List Byte) : Instr :=
  .update 0 (BitVec.ofNat 14 data.length) (packBytes data)

/-- `ABSORB <data>` (R96): one UPDATE, or several of at most 1024 payload words each where the data is longer than 4096 bytes. That it is
cut after every 4096 bytes is the model's choice (notes/assumptions/15.md). -/
def absorbLines (data : List Byte) : List Instr :=
  (splitEvery (4 * Config.kse1.payloadWordsMax) (data.length + 1) data).map updateOf

/-- The transactions of one assembler line (R95, R96). None where the line cannot be written: a HASH whose data is longer than the
LENGTH field can say. -/
def assemble : AsmLine → Option (List Transaction)
  | .new dsize => some [encode (.new dsize)]
  | .update offset length data => some [encode (.update offset length (packBytes (dataBytes data)))]
  | .finalize => some [encode .finalize]
  | .reset => some [encode .reset]
  | .status => some [encode .status]
  | .word first rest => some [⟨first, rest⟩]
  | .absorb data => some ((absorbLines (dataBytes data)).map encode)
  | .hash dsize data =>
    if (dataBytes data).length < 2 ^ 14 then
      some [encode (.new dsize), encode (updateOf (dataBytes data)), encode .finalize]
    else none
  | .new224 => some [encode (.new 224)]
  | .new256 => some [encode (.new 256)]
  | .new384 => some [encode (.new 384)]
  | .new512 => some [encode (.new 512)]

end Sys2Proof
end

