-- ==== Sys2Proof/Machine/State.lean ====
section
/-! DEFINITION. What one engine instance holds (spec/10_state.md): the tuple `(A, BUF, CUR, DSEL, PHASE, LASTERR)`, beside it the command
channel (R80) and the responses sent (R92), and the reasons a step can stop. Plain data throughout. -/

namespace Sys2Proof
namespace Machine

/-- The digest size selector `DSEL`, 2 bits, all four codes legal (R28, R162). -/
inductive DigestSel where
  | d224
  | d256
  | d384
  | d512
  deriving DecidableEq, Repr

/-- The lifecycle state `PHASE`, 2 bits, all four codes used (R29). -/
inductive Phase where
  | unconfigured
  | created
  | updating
  | finalized
  deriving DecidableEq, Repr

/-- The status codes (R190), the values `LASTERR` can hold (R30); codes 5 to 15 are never produced. -/
inductive Status where
  | ok
  | unsupportedDigestSize
  | invalidState
  | argumentRange
  | illegalCommand
  deriving DecidableEq, Repr

/-- The pending buffer `BUF` as a byte memory (R25, R50): the bytes that differ from what an unlisted index reads as, by rising index.
`lost` says what an unlisted byte holds: `none`, 0x00, as hardware reset, NEW and RESET leave it (R36); `some n`, an unspecified
value, as block absorption number `n` left it (R26, U6; notes/assumptions/1.md). -/
structure Memory where
  cells : List Host.Cell
  lost : Option Nat
  deriving DecidableEq, Repr

/-- The buffer whose every byte is 0x00 (R36). -/
def Memory.zero : Memory := { cells := [], lost := none }

/-- The lane array whose every lane is zero (R36). -/
def zeroLanes : Lanes := Vector.replicate 25 0

/-- The architectural state of one engine instance (spec/10_state.md). -/
structure Engine where
  /-- `A[0..24]` (R20). -/
  lanes : Lanes
  /-- `BUF` (R25). -/
  buf : Memory
  /-- `CUR`, 8 bits, the number of bytes held in `BUF` (R27). -/
  cur : BitVec 8
  /-- `DSEL` (R28). -/
  dsel : DigestSel
  /-- `PHASE` (R29). -/
  phase : Phase
  /-- `LASTERR`, 4 bits (R30). -/
  lastErr : Status
  /-- The MODEL'S OWN field, not the spec's: how many block absorptions have drawn unspecified buffer bytes
  (notes/assumptions/1.md). -/
  draws : Nat
  deriving DecidableEq, Repr

/-- The engine after hardware reset (R36). -/
def Engine.reset : Engine :=
  { lanes := zeroLanes, buf := .zero, cur := 0, dsel := .d224, phase := .unconfigured, lastErr := .ok, draws := 0 }

/-- One thing the host does on the command channel. -/
inductive ChannelEvent where
  /-- The host presents a transaction, having received the response to the one before (R223). -/
  | transaction (t : Transaction)
  /-- The host forces `forced` in while the command of `running` runs (R223, U1). -/
  | overlap (running forced : Transaction)
  deriving DecidableEq, Repr

/-- A response `R[0], ..., R[r]` (R92). -/
abbrev Response := List Word

/-- One engine with its channel. `channel` is what the host presents from now on, the next first (R33: the command sequence is an input
list); `responses` are the responses sent so far, the oldest first (R177: the step's second component). -/
structure State where
  engine : Engine
  channel : List ChannelEvent
  responses : List Response
  deriving DecidableEq, Repr

/-- Why a step can stop with a fault. -/
inductive Fault where
  /-- Raised by UPDATE (with bytes to absorb) and FINALIZE where `CUR` is not inside the block, `BUF[CUR]` with `CUR >= BS`, a byte the
  spec says does not exist (R12, R25, R141). No run reaches such a state (R38). Safe. -/
  | cursorOutsideBlock
  deriving DecidableEq, Repr

/-- Why a step can be refused. -/
inductive Refusal where
  /-- Raised by `exec` for a command that has no meaning yet. Safe. -/
  | notModelled (mnemonic : String)
  /-- Raised by `step` where two transactions overlap on the instance: undefined, and given no meaning (R223, U1, D17). Safe. -/
  | overlappingTransactions
  deriving DecidableEq, Repr

/-- The machine right after hardware reset (R36), with nothing presented and nothing answered (notes/assumptions/2.md). -/
def State.reset : State :=
  { engine := .reset, channel := [], responses := [] }

end Machine
end Sys2Proof
end

