-- ==== Sys2Proof/Machine/Flags.lean ====
section
/-! DEFINITION. The engine has no status flags (R32). What it reports of itself is here: the numeric codes of `PHASE`, `DSEL` and the
status (R28, R29, R190), and the status word `STATUSW` (R31). -/

namespace Sys2Proof
namespace Machine

/-- The code of a phase (R29). -/
def Phase.code : Phase → BitVec 2
  | .unconfigured => 0
  | .created => 1
  | .updating => 2
  | .finalized => 3

/-- The code of a digest size selector (R28). -/
def DigestSel.code : DigestSel → BitVec 2
  | .d224 => 0
  | .d256 => 1
  | .d384 => 2
  | .d512 => 3

/-- The status code (R190). -/
def Status.code : Status → BitVec 4
  | .ok => 0
  | .unsupportedDigestSize => 1
  | .invalidState => 2
  | .argumentRange => 3
  | .illegalCommand => 4

/-- `STATUSW = zext_32({LASTERR[3:0], CUR[7:0], DSEL[1:0], PHASE[1:0]})` (R31). -/
def statusWord (e : Engine) : Word :=
  (e.lastErr.code ++ e.cur ++ e.dsel.code ++ e.phase.code).setWidth 32

end Machine
end Sys2Proof
end

