-- ==== Sys2Proof/Machine/Ops.lean ====
section
/-! DEFINITION. The named operations on the state: reading and writing `BUF`, clearing the engine, answering a transaction, raising an
error (the engine's only kind of exception, R195), taking the next event off the channel, and hardware reset. -/

namespace Sys2Proof
namespace Machine

/-- The byte listed at index `j`, if one is. -/
def lookupCell : List Host.Cell → Nat → Option Byte
  | [], _ => none
  | (a, b) :: rest, j => if a = j then some b else lookupCell rest j

/-- Lists byte `b` at index `j`, in rising order, in place of what was listed there. -/
def insertCell : List Host.Cell → Nat → Byte → List Host.Cell
  | [], j, b => [(j, b)]
  | (a, c) :: rest, j, b =>
    if j < a then (j, b) :: (a, c) :: rest
    else if j = a then (j, b) :: rest
    else (a, c) :: insertCell rest j b

/-- Lists nothing at index `j`. -/
def eraseCell (cells : List Host.Cell) (j : Nat) : List Host.Cell :=
  cells.filter fun c => decide (c.1 ≠ j)

/-- What an unlisted byte of the buffer reads as: 0x00 (R36), or the free value that block absorption left (R26, U6). -/
def Memory.unlisted (m : Memory) (j : Nat) : Byte :=
  match m.lost with
  | none => 0
  | some draw => Config.staleBufByte draw j

/-- `BUF[j]`, read (R12). Reading has no side effect (R56). -/
def Memory.read (m : Memory) (j : Nat) : Byte :=
  (lookupCell m.cells j).getD (m.unlisted j)

/-- `BUF[j] <- b` (R12). A byte equal to what an unlisted byte is known to read as is not listed. -/
def Memory.write (m : Memory) (j : Nat) (b : Byte) : Memory :=
  if m.lost = none ∧ b = 0 then { m with cells := eraseCell m.cells j }
  else { m with cells := insertCell m.cells j b }

/-- `MemWrite(BUF, a, n, v)` (R12): byte `a+k` takes `(v >> (8*k)) & 0xFF`. No command uses it. -/
def Memory.writeWide (m : Memory) (a n v : Nat) : Memory :=
  (List.range n).foldl (fun m k => m.write (a + k) (byteAt v k)) m

/-- Every byte of the buffer becomes unspecified (R26): nothing is listed, and an unlisted byte is free value number `draw`. -/
def Memory.lose (draw : Nat) : Memory :=
  { cells := [], lost := some draw }

/-- Whether the content of byte `j` is specified: it has been written, or cleared, since the last block absorption (R26). -/
def Memory.specified (m : Memory) (j : Nat) : Bool :=
  m.lost.isNone || (lookupCell m.cells j).isSome

/-- The canonical form of the buffer's bytes: indexes strictly rising and below `BUF_PHYS` = 144, and no listed byte equal to the
0x00 an unlisted byte is known to read as. -/
abbrev Memory.wf (m : Memory) : Prop :=
  m.cells.Pairwise (fun x y => x.1 < y.1) ∧ (∀ c ∈ m.cells, c.1 < Config.kse1.bufPhys) ∧
    (m.lost = none → ∀ c ∈ m.cells, c.2 ≠ 0)

/-- What NEW and RESET share (R170, R174): lanes, buffer and cursor to zero. -/
def Engine.clear (e : Engine) : Engine :=
  { e with lanes := zeroLanes, buf := .zero, cur := 0 }

/-- `respond(code, words)` (R12, R92): `R[0]` is the status code zero-extended, the data words follow. -/
def State.respond (s : State) (code : Status) (data : List Word) : State :=
  { s with responses := s.responses ++ [code.code.setWidth 32 :: data] }

/-- `raise <Error>` (R195), the engine's error entry: nothing changes but `LASTERR`, and the response is the error's code alone. There is
no saved context, no vector and no mode, and so no return (R197): the next transaction is simply accepted. -/
def State.raise (s : State) (error : Status) : State :=
  ({ s with engine := { s.engine with lastErr := error } }).respond error []

/-- The end of a command that succeeds (R170 to R174): `LASTERR <- 0` and `respond(0, words)`. -/
def State.succeed (s : State) (e : Engine) (data : List Word) : State :=
  ({ s with engine := { e with lastErr := .ok } }).respond .ok data

/-- ILLEGAL (R194): a transaction that decodes to no command raises `IllegalCommand`, in every phase. -/
def execIllegal (s : State) : Host.Outcome State Fault Refusal :=
  .next (s.raise .illegalCommand)

/-- The next event on the channel, and the state with it taken off (R33, R80). -/
def fetch (s : State) : Option (ChannelEvent × State) :=
  match s.channel with
  | [] => none
  | event :: rest => some (event, { s with channel := rest })

/-- Hardware reset asserted between two transactions (R220, R221). It is no step of the machine (R221): it chooses a new initial state.
The host's channel and the responses already sent are the host's and stay (notes/assumptions/4.md). -/
def State.hardwareReset (s : State) : State :=
  { s with engine := { Engine.reset with draws := s.engine.draws } }

/-- Hardware reset asserted while the next transaction's command runs (R221): that command is lost without a response. DESIGN CHOICE:
where two transactions overlap (R223, U1), both are taken off the channel and lost; the spec says nothing of a reset then
(notes/assumptions/16.md). -/
def State.hardwareResetDuring (s : State) : State :=
  { s.hardwareReset with channel := s.channel.tail }

end Machine
end Sys2Proof
end

