-- ==== Sys2Proof/Machine/RateController.lean ====
section
/-! DEFINITION. The rate controller (spec/42_rate_controller.md): RATE_SELECT and the numbers it gives. -/

namespace Sys2Proof
namespace Machine

/-- What RATE_SELECT answers: `RATE` in bits, `BS` and `OUTLEN` in bytes (R162). -/
structure RateRow where
  rate : Nat
  blockSize : Nat
  outLen : Nat
  deriving DecidableEq, Repr

/-- RATE_SELECT (R162). -/
def rateSelect : DigestSel → RateRow
  | .d224 => ⟨1152, 144, 28⟩
  | .d256 => ⟨1088, 136, 32⟩
  | .d384 => ⟨832, 104, 48⟩
  | .d512 => ⟨576, 72, 64⟩

/-- The digest size in bits of a selector (R28, R160). -/
def digestBits : DigestSel → Nat
  | .d224 => 224
  | .d256 => 256
  | .d384 => 384
  | .d512 => 512

/-- `RATE`, in bits (R160). -/
def rate (d : DigestSel) : Nat := (rateSelect d).rate

/-- `CAP` = 1600 - `RATE`, in bits (R161). -/
def capacity (d : DigestSel) : Nat := Config.stateWidth - rate d

/-- `BS`, in bytes (R161). -/
def blockSize (d : DigestSel) : Nat := (rateSelect d).blockSize

/-- `OUTLEN`, in bytes (R161). -/
def outLen (d : DigestSel) : Nat := (rateSelect d).outLen

end Machine
end Sys2Proof
end

