-- ==== Sys2Proof/Machine/Operands.lean ====
section
/-! DEFINITION. How a command's operands are read and its result is packed (spec/30_encoding.md, section 3 and 5; spec/20_memory.md):
the selector of a digest size, the payload bytes and their range, the byte view of the lanes, the words of a digest. -/

namespace Sys2Proof
namespace Machine

/-- `PAD_BYTE` of this hardware (R8, R146). -/
def padByte : Byte := Config.kse1.padByte

/-- The selector that NEW writes for the size `d` in bits; none for a size that is not in `DSIZES` (R88). -/
def selectorOf (d : Nat) : Option DigestSel :=
  if d = 224 then some .d224
  else if d = 256 then some .d256
  else if d = 384 then some .d384
  else if d = 512 then some .d512
  else none

/-- `P[j] = (W[1 + j div 4] >> (8 * (j mod 4))) & 0xFF` (R86). -/
def payloadByte (payload : List Word) (j : Nat) : Byte :=
  byteAt (payload.getD (j / 4) 0).toNat (j % 4)

/-- The range check of UPDATE: `OFFSET + LENGTH <= 4*n` on integers (R87, R193). -/
def rangeOk (offset length : BitVec 14) (payload : List Word) : Bool :=
  decide (offset.toNat + length.toNat ≤ 4 * payload.length)

/-- `P[OFFSET], ..., P[OFFSET+LENGTH-1]`, the bytes UPDATE absorbs, in that order (R87). -/
def selectedBytes (offset length : BitVec 14) (payload : List Word) : List Byte :=
  (List.range length.toNat).map fun k => payloadByte payload (offset.toNat + k)

/-- `S[j] = (A[j div 8] >> (8 * (j mod 8))) & 0xFF`, the state byte view, `0 <= j <= 199` (R52). -/
def stateByte (a : Lanes) (j : Nat) : Byte :=
  byteAt (a[j / 8]?.getD 0).toNat (j % 8)

/-- The flat view `ST = {A[24], ..., A[0]}` (R22): lane `i` is bits `64*i + 63` down to `64*i`. -/
def flatState (a : Lanes) : BitVec 1600 :=
  BitVec.ofNat 1600 ((List.range 25).map fun i => (a[i]?.getD 0).toNat * 2 ^ (64 * i)).sum

/-- The digest as response words: `R[1+i] = MemRead(G, 4*i, 4)` for `i` in `0 .. OUTLEN/4 - 1` (R93). -/
def digestWords (digest : List Byte) : List Word :=
  (List.range (digest.length / 4)).map fun i => BitVec.ofNat 32 (memRead (fun j => digest.getD j 0) (4 * i) 4)

end Machine
end Sys2Proof
end

