-- ==== Sys2Proof/Machine/Permutation.lean ====
section
/-! DEFINITION. The permutation pipeline (spec/40_permutation.md): the constant tables, the five steps, the round and KECCAK_F. Every
step is a function from a lane array to a new one (R110); the intermediate arrays are values, not state (R125). -/

namespace Sys2Proof
namespace Machine

/-- `ROT[0..24]`, the left-rotation amount of each lane (R111). -/
def rotTable : Vector Nat 25 :=
  #v[0, 1, 62, 28, 27,
     36, 44, 6, 55, 20,
     3, 10, 43, 25, 39,
     41, 45, 15, 21, 8,
     18, 2, 61, 56, 14]

/-- The rows of R112's table: on the left the constant of round `r`, on the right that of round `r + 12`. -/
def rcRows : Vector (Lane × Lane) 12 :=
  #v[(0x0000000000000001, 0x000000008000808B),
     (0x0000000000008082, 0x800000000000008B),
     (0x800000000000808A, 0x8000000000008089),
     (0x8000000080008000, 0x8000000000008003),
     (0x000000000000808B, 0x8000000000008002),
     (0x0000000080000001, 0x8000000000000080),
     (0x8000000080008081, 0x000000000000800A),
     (0x8000000000008009, 0x800000008000000A),
     (0x000000000000008A, 0x8000000080008081),
     (0x0000000000000088, 0x8000000000008080),
     (0x0000000080008009, 0x0000000080000001),
     (0x000000008000000A, 0x8000000080008008)]

/-- `RC[0..23]`, the constant of each round: the left column of R112's table read downward, then the right one. -/
def rcTable : Vector Lane 24 :=
  Vector.ofFn fun ir : Fin 24 => if h : ir.val < 12 then rcRows[ir.val].1 else rcRows[ir.val - 12].2

/-- `PISRC[0..24]`: the old lane that lands at each new index (R113). -/
def piSrc : Vector (Fin 25) 25 :=
  #v[0, 6, 12, 18, 24,
     3, 9, 10, 16, 22,
     1, 7, 13, 19, 20,
     4, 5, 11, 17, 23,
     2, 8, 14, 15, 21]

/-- `PIDST[0..24]`: the new index of each old lane (R113). -/
def piDst : Vector (Fin 25) 25 :=
  #v[0, 10, 20, 5, 15,
     16, 1, 11, 21, 6,
     7, 17, 2, 12, 22,
     23, 8, 18, 3, 13,
     14, 24, 9, 19, 4]

/-- `A[x,y]`, the lane with index `x + 5*y`, the coordinates taken modulo 5 (R21, R110). -/
def laneAt (a : Lanes) (x y : Nat) : Lane :=
  a[x % 5 + 5 * (y % 5)]'(by omega)

/-- Entry `x mod 5` of a five-entry table (R110). -/
def entryAt (t : Vector Lane 5) (x : Nat) : Lane :=
  t[(x % 5)]'(Nat.mod_lt x (by decide))

/-- `C[x]`, the parity of column `x` (R114). -/
def columnParity (a : Lanes) : Vector Lane 5 :=
  Vector.ofFn fun x : Fin 5 => laneAt a x 0 ^^^ laneAt a x 1 ^^^ laneAt a x 2 ^^^ laneAt a x 3 ^^^ laneAt a x 4

/-- `D[x] = C[x-1] ^ ROL(C[x+1], 1)` (R114). -/
def thetaMask (c : Vector Lane 5) : Vector Lane 5 :=
  Vector.ofFn fun x : Fin 5 => entryAt c (x + 4) ^^^ rol (entryAt c (x + 1)) 1

/-- THETA (R114). -/
def theta (a : Lanes) : Lanes :=
  Vector.ofFn fun i : Fin 25 => a[i] ^^^ entryAt (thetaMask (columnParity a)) i

/-- RHO (R115). -/
def rho (a : Lanes) : Lanes :=
  Vector.ofFn fun i : Fin 25 => rol a[i] rotTable[i]

/-- PI (R116), as `result[j] = a[PISRC[j]]`. -/
def pi (a : Lanes) : Lanes :=
  Vector.ofFn fun j : Fin 25 => a[piSrc[j]]

/-- CHI (R117). -/
def chi (a : Lanes) : Lanes :=
  Vector.ofFn fun i : Fin 25 =>
    let x := i.val % 5
    let y := i.val / 5
    laneAt a x y ^^^ (~~~(laneAt a (x + 1) y) &&& laneAt a (x + 2) y)

/-- IOTA (R118). -/
def iota (a : Lanes) (ir : Fin 24) : Lanes :=
  a.set 0 (a[0] ^^^ rcTable[ir])

/-- ROUND (R119): theta, rho, pi, chi, iota, in that order. -/
def round (a : Lanes) (ir : Fin 24) : Lanes :=
  iota (chi (pi (rho (theta a)))) ir

/-- KECCAK_F (R124): the round index runs upward from 0 to 23. -/
@[irreducible] def keccakF (a : Lanes) : Lanes :=
  (List.finRange 24).foldl round a

end Machine
end Sys2Proof
end

