-- ==== Sys2Proof/Machine/Sponge.lean ====
section
/-! DEFINITION. The sponge state machine (spec/41_sponge.md). Its operations raise nothing (R205); `BS` and `OUTLEN` are those `DSEL`
selects (R162). Their precondition `CUR <= BS - 1` (R141, R146) is checked by the commands that call them. -/

namespace Sys2Proof
namespace Machine

/-- PUT_BYTE (R141). -/
def Engine.putByte (e : Engine) (b : Byte) : Engine :=
  { e with buf := e.buf.write e.cur.toNat b, cur := e.cur + 1 }

/-- XOR_BLOCK (R143): word `i` of the block goes to lane `i`, for `i` in `0 .. BS/8 - 1`. -/
@[irreducible] def Engine.xorBlock (e : Engine) : Engine :=
  { e with
    lanes := Vector.ofFn fun i : Fin 25 =>
      if i.val < blockSize e.dsel / 8 then e.lanes[i] ^^^ BitVec.ofNat 64 (memRead e.buf.read (8 * i.val) 8)
      else e.lanes[i] }

/-- ABSORB_BLOCK (R144): XOR_BLOCK, KECCAK_F, `CUR <- 0`. What the buffer's bytes hold afterwards is not specified (R26):
free values under the number this engine's count has reached (notes/assumptions/1.md); an engine at the same count elsewhere reads the
same ones, by the model's choice (notes/assumptions/14.md). -/
def Engine.absorbBlock (e : Engine) : Engine :=
  { e.xorBlock with lanes := keccakF e.xorBlock.lanes, cur := 0, buf := .lose e.draws, draws := e.draws + 1 }

/-- One turn of the loop of ABSORB_BYTES (R142): PUT_BYTE, and ABSORB_BLOCK as soon as `CUR = BS`. -/
def Engine.absorbByte (e : Engine) (b : Byte) : Engine :=
  if (e.putByte b).cur.toNat = blockSize e.dsel then (e.putByte b).absorbBlock else e.putByte b

/-- ABSORB_BYTES (R142). -/
def Engine.absorbBytes (e : Engine) (data : List Byte) : Engine :=
  data.foldl Engine.absorbByte e

/-- PAD (R146), with `PAD_BYTE` as an argument. `CUR` is not changed. -/
def Engine.pad (e : Engine) (first : Byte) : Engine :=
  let bs := blockSize e.dsel
  let start := e.cur.toNat
  let marked := e.buf.write start first
  let filled := (List.range (bs - (start + 1))).foldl (fun m k => m.write (start + 1 + k) 0) marked
  { e with buf := filled.write (bs - 1) (filled.read (bs - 1) ||| 0x80) }

/-- ABSORB_FINAL (R147): PAD, then ABSORB_BLOCK. -/
def Engine.absorbFinal (e : Engine) (first : Byte) : Engine :=
  (e.pad first).absorbBlock

/-- SQUEEZE (R149): `G[j] = S[j]` for `j` in `0 .. OUTLEN - 1`. -/
def Engine.squeeze (e : Engine) : List Byte :=
  (List.range (outLen e.dsel)).map (stateByte e.lanes)

end Machine
end Sys2Proof
end

