-- ==== Sys2Proof/Machine/Commands.lean ====
section
/-! DEFINITION. The meanings of the five host commands (spec/43_commands.md). The checks are made in the order of R196, before any
write (R195). -/

namespace Sys2Proof
namespace Machine

/-- The phases in which UPDATE and FINALIZE are accepted: `Created` and `Updating` (R171, R173, R176). -/
def Phase.acceptsData : Phase → Bool
  | .unconfigured => false
  | .created => true
  | .updating => true
  | .finalized => false

/-- `CUR <= BS - 1`, the precondition of PUT_BYTE and PAD (R141, R146), which every state a run reaches meets (R38). -/
def Engine.cursorOk (e : Engine) : Bool :=
  decide (e.cur.toNat < blockSize e.dsel)

/-- NEW (R170). Accepted in every phase; a size that is not one of the four raises `UnsupportedDigestSize`. -/
def execNew (dsize : BitVec 10) (s : State) : Host.Outcome State Fault Refusal :=
  match selectorOf dsize.toNat with
  | none => .next (s.raise .unsupportedDigestSize)
  | some d => .next (s.succeed { s.engine.clear with dsel := d, phase := .created } [])

/-- UPDATE (R171). The phase is checked before the range (R196); every success leaves `PHASE = Updating`, also one that absorbs nothing
(R172). -/
def execUpdate (offset length : BitVec 14) (payload : List Word) (s : State) : Host.Outcome State Fault Refusal :=
  if s.engine.phase.acceptsData then
    if rangeOk offset length payload then
      if length.toNat = 0 ∨ s.engine.cursorOk then
        .next (s.succeed { s.engine.absorbBytes (selectedBytes offset length payload) with phase := .updating } [])
      else .fault .cursorOutsideBlock
    else .next (s.raise .argumentRange)
  else .next (s.raise .invalidState)

/-- FINALIZE (R173): ABSORB_FINAL, SQUEEZE, and the digest in the response. -/
def execFinalize (s : State) : Host.Outcome State Fault Refusal :=
  if s.engine.phase.acceptsData then
    if s.engine.cursorOk then
      let e := s.engine.absorbFinal padByte
      .next (s.succeed { e with phase := .finalized } (digestWords e.squeeze))
    else .fault .cursorOutsideBlock
  else .next (s.raise .invalidState)

/-- RESET (R174): back to `Created` with `DSEL` unchanged; `InvalidState` where nothing is configured. -/
def execReset (s : State) : Host.Outcome State Fault Refusal :=
  if s.engine.phase = .unconfigured then .next (s.raise .invalidState)
  else .next (s.succeed { s.engine.clear with phase := .created } [])

/-- STATUS (R175): answers `STATUSW` and changes no state, `LASTERR` included. -/
def execStatus (s : State) : Host.Outcome State Fault Refusal :=
  .next (s.respond .ok [statusWord s.engine])

end Machine
end Sys2Proof
end

