-- ==== Sys2Proof/Machine/Dispatch.lean ====
section
/-! DEFINITION. The dispatch of a decoded command to its meaning, one arm per constructor of `Instr`. -/

namespace Sys2Proof
namespace Machine

def exec (i : Instr) (s : State) : Host.Outcome State Fault Refusal :=
  match i with
  | .new dsize => Sys2Proof.Machine.execNew dsize s
  | .update offset length payload => Sys2Proof.Machine.execUpdate offset length payload s
  | .finalize => Sys2Proof.Machine.execFinalize s
  | .reset => Sys2Proof.Machine.execReset s
  | .status => Sys2Proof.Machine.execStatus s

end Machine
end Sys2Proof
end

