-- ==== Sys2Proof/Machine/Step.lean ====
section
/-! DEFINITION. One step (R177): take the next transaction off the channel, decode it, run its command or apply R194. -/

namespace Sys2Proof
namespace Machine

/-- The step function (R177). With nothing presented the engine takes no step of its own and its state does not change. Two overlapping
transactions have no meaning (R223). -/
def step (s : State) : Host.Outcome State Fault Refusal :=
  match fetch s with
  | none => .next s
  | some (.overlap _ _, _) => .refused .overlappingTransactions
  | some (.transaction t, s') =>
    match decode t with
    | .ok i => exec i s'
    | .error _ => execIllegal s'

/-- `s` with the transaction of a row of the opcode table presented next on the channel, so that the very next step runs it. -/
def State.withFetchWord (s : State) (nbits w : Nat) : State :=
  { s with channel := .transaction (tableTransaction nbits w) :: s.channel }

end Machine
end Sys2Proof
end

