-- ==== Sys2Proof/Machine/Chip.lean ====
section
/-! DEFINITION. Several engines on one chip (R39, R203): each is a full copy of the state with its own command channel, and a step of
one is a step of that one alone. -/

namespace Sys2Proof
namespace Machine

/-- The engines of a chip; they share nothing but the constant tables (R203). DESIGN CHOICE: the free values of their unspecified buffer
bytes are numbered by each engine's own count from 0, so equal counts read equal values (notes/assumptions/14.md). -/
abbrev Chip := List State

/-- Engine number `n` takes one step; where the chip has no such engine nothing happens. -/
def Chip.step (chip : Chip) (n : Nat) : Host.Outcome Chip Fault Refusal :=
  match chip[n]? with
  | none => .next chip
  | some s =>
    match Machine.step s with
    | .next s' => .next (chip.set n s')
    | .fault r => .fault r
    | .refused r => .refused r

end Machine
end Sys2Proof
end

