-- ==== Sys2Proof/Safety.lean ====
section
/-! DEFINITION. What claims about the engine are stated in: the invariant of R38, runs of commands, the part of the state that anything
can observe (R26), and the reference hash that FINALIZE is held against. -/

namespace Sys2Proof
namespace Machine

/-- What holds between any two commands: R38 (a) to (d), the canonical form of the buffer, and that every pending byte has been
written (R26). R38 (e) is about two states and is a statement of its own. -/
structure Engine.Inv (e : Engine) : Prop where
  bufWf : e.buf.wf
  cursorInBlock : e.cur.toNat < blockSize e.dsel
  cursorZero : e.phase ≠ .updating → e.cur = 0
  createdLanes : e.phase = .created → e.lanes = zeroLanes
  unconfigured : e.phase = .unconfigured → e.lanes = zeroLanes ∧ e.buf = .zero ∧ e.dsel = .d224
  pendingSpecified : ∀ j < e.cur.toNat, e.buf.specified j = true

/-- The invariant of the machine: its engine's. -/
def State.Inv (s : State) : Prop := s.engine.Inv

/-- The host has not forced a second transaction into the one presented next (R223). -/
def State.serial (s : State) : Prop :=
  ∀ running forced rest, s.channel ≠ .overlap running forced :: rest

/-- Two engines alike in everything a rule can read: every field but the buffer bytes at and above the cursor (R26) and the model's own
count of draws. -/
structure Engine.SameVisible (e f : Engine) : Prop where
  lanes : e.lanes = f.lanes
  cur : e.cur = f.cur
  dsel : e.dsel = f.dsel
  phase : e.phase = f.phase
  lastErr : e.lastErr = f.lastErr
  pending : ∀ j < e.cur.toNat, e.buf.read j = f.buf.read j

/-- The commands of a list, one after the other, stopping at the first fault or refusal (R177: a run is a fold). -/
def execAll : List Instr → State → Host.Outcome State Fault Refusal
  | [], s => .next s
  | i :: rest, s =>
    match exec i s with
    | .next t => execAll rest t
    | .fault r => .fault r
    | .refused r => .refused r

/-- The operands of one UPDATE. -/
structure UpdateArgs where
  offset : BitVec 14
  length : BitVec 14
  payload : List Word
  deriving DecidableEq, Repr

/-- The UPDATE with these operands. -/
def UpdateArgs.instr (u : UpdateArgs) : Instr := .update u.offset u.length u.payload

/-- The bytes that UPDATE absorbs (R87). -/
def UpdateArgs.data (u : UpdateArgs) : List Byte := selectedBytes u.offset u.length u.payload

/-- Its range lies inside its payload (R193). -/
def UpdateArgs.inRange (u : UpdateArgs) : Prop := u.offset.toNat + u.length.toNat ≤ 4 * u.payload.length

/-- REFERENCE. The lifecycle table of R176: for a phase and a decoded command, the status answered and the phase afterwards. -/
def lifecycle : Phase → Instr → Status × Phase
  | p, .new dsize =>
    if dsize.toNat ∈ Config.digestSizes then (.ok, .created) else (.unsupportedDigestSize, p)
  | .created, .update offset length payload =>
    if offset.toNat + length.toNat ≤ 4 * payload.length then (.ok, .updating) else (.argumentRange, .created)
  | .updating, .update offset length payload =>
    if offset.toNat + length.toNat ≤ 4 * payload.length then (.ok, .updating) else (.argumentRange, .updating)
  | .unconfigured, .update _ _ _ => (.invalidState, .unconfigured)
  | .finalized, .update _ _ _ => (.invalidState, .finalized)
  | .created, .finalize => (.ok, .finalized)
  | .updating, .finalize => (.ok, .finalized)
  | .unconfigured, .finalize => (.invalidState, .unconfigured)
  | .finalized, .finalize => (.invalidState, .finalized)
  | .unconfigured, .reset => (.invalidState, .unconfigured)
  | .created, .reset => (.ok, .created)
  | .updating, .reset => (.ok, .created)
  | .finalized, .reset => (.ok, .created)
  | p, .status => (.ok, p)

/-- REFERENCE. Byte `j` of the last block (R146): the pending bytes, the first padding byte at the cursor, zeros, and 0x80 ORed into
the last byte. -/
def finalBlockByte (first : Byte) (e : Engine) (j : Nat) : Byte :=
  (if j < e.cur.toNat then e.buf.read j else if j = e.cur.toNat then first else 0) |||
    (if j = blockSize e.dsel - 1 then 0x80 else 0)

/-- REFERENCE. The little-endian 64-bit word of eight bytes, the first lowest (R143). -/
def laneOfBytes (b : Nat → Byte) (i : Nat) : Lane :=
  b (8 * i + 7) ++ b (8 * i + 6) ++ b (8 * i + 5) ++ b (8 * i + 4) ++ b (8 * i + 3) ++ b (8 * i + 2) ++ b (8 * i + 1) ++ b (8 * i)

/-- REFERENCE. The little-endian 32-bit word of four bytes, the first lowest (R86, R93). -/
def wordOfBytes (b : Nat → Byte) (i : Nat) : Word :=
  b (4 * i + 3) ++ b (4 * i + 2) ++ b (4 * i + 1) ++ b (4 * i)

/-- REFERENCE. Bit `z` of the parity of column `x`, both taken modulo their range (R121). -/
def parityBit (a : Lanes) (x z : Nat) : Bool :=
  (laneAt a x 0).getLsbD (z % 64) ^^ (laneAt a x 1).getLsbD (z % 64) ^^ (laneAt a x 2).getLsbD (z % 64) ^^
    (laneAt a x 3).getLsbD (z % 64) ^^ (laneAt a x 4).getLsbD (z % 64)

/-- REFERENCE. The message followed by its padding (R146): the first padding byte, zeros, and 0x80 in the last byte of the last block;
one byte carries both where one byte is left. -/
def paddedMessage (first : Byte) (bs : Nat) (message : List Byte) : List Byte :=
  let room := bs - message.length % bs
  message ++ (if room = 1 then [first ||| 0x80] else first :: List.replicate (room - 2) 0 ++ [0x80])

/-- REFERENCE. A block XORed into the first lanes as little-endian words (R143). -/
def xorBytes (a : Lanes) (block : List Byte) : Lanes :=
  Vector.ofFn fun i : Fin 25 =>
    if 8 * i.val + 8 ≤ block.length then
      a[i] ^^^ BitVec.ofNat 64 (memRead (fun j => block.getD j 0) (8 * i.val) 8)
    else a[i]

/-- REFERENCE. The first `n` blocks of `bs` bytes of a message absorbed, each followed by one permutation. -/
def absorbBlocks (bs : Nat) : Nat → List Byte → Lanes → Lanes
  | 0, _, a => a
  | n + 1, message, a => absorbBlocks bs n (message.drop bs) (keccakF (xorBytes a (message.take bs)))

/-- REFERENCE. The digest of a message: its padding, `floor(m / BS) + 1` blocks from the zero state (R151), and the first `OUTLEN` bytes
of the lanes. It has no buffer, no cursor and no phase. -/
def spongeHash (first : Byte) (d : DigestSel) (message : List Byte) : List Byte :=
  let bs := blockSize d
  let final := absorbBlocks bs (message.length / bs + 1) (paddedMessage first bs message) zeroLanes
  (List.range (outLen d)).map (stateByte final)

end Machine
end Sys2Proof
end

