-- ==== Sys2Proof/Certificates/Slice0/Obligations.lean ====
section
/-! DEFINITION. What is claimed of the model, from the numbered rules of spec/. Every claim about a free value (the buffer bytes R26
leaves unspecified) holds whatever it is. -/

open Sys2Proof Sys2Proof.Machine

/-! ### Reset -/

/-- R36, all three columns: after hardware reset, after a successful NEW, after a successful RESET. -/
def Obligations.ResetValuesOfEveryField : Prop :=
  ((∀ i : Fin 25, State.reset.engine.lanes[i] = 0) ∧ (∀ j < 144, State.reset.engine.buf.read j = 0) ∧
    State.reset.engine.cur = 0 ∧ State.reset.engine.dsel.code = 0 ∧ State.reset.engine.phase.code = 0 ∧
    State.reset.engine.lastErr.code = 0) ∧
  (∀ (s : State) (d : DigestSel), ∃ t, exec (.new (BitVec.ofNat 10 (digestBits d))) s = .next t ∧
    (∀ i : Fin 25, t.engine.lanes[i] = 0) ∧ (∀ j < 144, t.engine.buf.read j = 0) ∧ t.engine.cur = 0 ∧
    t.engine.dsel = d ∧ t.engine.phase = .created ∧ t.engine.lastErr = .ok) ∧
  (∀ s : State, s.engine.phase ≠ .unconfigured → ∃ t, exec .reset s = .next t ∧
    (∀ i : Fin 25, t.engine.lanes[i] = 0) ∧ (∀ j < 144, t.engine.buf.read j = 0) ∧ t.engine.cur = 0 ∧
    t.engine.dsel = s.engine.dsel ∧ t.engine.phase = .created ∧ t.engine.lastErr = .ok)

/-- R220: hardware reset leaves `Unconfigured` and `DSEL = 0`, RESET leaves `Created` and keeps `DSEL`; both zero the lanes, the buffer,
the cursor and `LASTERR`. R221: a command that was running is lost without a response. That the two hardware resets are operations on a
state which keep the responses already sent is the model's choice (notes/assumptions/4.md); so is that, where two transactions overlap, both
are lost (notes/assumptions/16.md). -/
def Obligations.HardwareResetAgainstResetCommand : Prop :=
  ∀ s : State,
    (s.hardwareReset.engine.phase = .unconfigured ∧ s.hardwareReset.engine.dsel.code = 0 ∧
      s.hardwareReset.engine.lanes = zeroLanes ∧ (∀ j, s.hardwareReset.engine.buf.read j = 0) ∧
      s.hardwareReset.engine.cur = 0 ∧ s.hardwareReset.engine.lastErr = .ok) ∧
    (s.hardwareResetDuring.engine = s.hardwareReset.engine ∧ s.hardwareResetDuring.channel = s.channel.tail ∧
      s.hardwareResetDuring.responses = s.responses) ∧
    (s.engine.phase ≠ .unconfigured → ∃ t, exec .reset s = .next t ∧ t.engine.phase = .created ∧
      t.engine.dsel = s.engine.dsel ∧ t.engine.lanes = zeroLanes ∧ (∀ j, t.engine.buf.read j = 0) ∧
      t.engine.cur = 0 ∧ t.engine.lastErr = .ok)

/-! ### The five commands and ILLEGAL -/

/-- R170: NEW in every phase and for every operand; the four sizes with their selectors, and every other size. With its frame: the
channel and the responses already sent stay. -/
def Obligations.NewConstructsOrRejects : Prop :=
  ∀ (s : State) (dsize : BitVec 10),
    (∀ d, (dsize.toNat, d) ∈ [(224, DigestSel.d224), (256, .d256), (384, .d384), (512, .d512)] →
      exec (.new dsize) s = .next
        { engine := { lanes := zeroLanes, buf := .zero, cur := 0, dsel := d, phase := .created, lastErr := .ok,
                      draws := s.engine.draws },
          channel := s.channel, responses := s.responses ++ [[0]] }) ∧
    (dsize.toNat ≠ 224 ∧ dsize.toNat ≠ 256 ∧ dsize.toNat ≠ 384 ∧ dsize.toNat ≠ 512 →
      exec (.new dsize) s = .next
        { s with engine := { s.engine with lastErr := .unsupportedDigestSize }, responses := s.responses ++ [[1]] })

/-- R171: UPDATE. Accepted in `Created` and `Updating` with a range inside the payload, it absorbs exactly the selected bytes in order;
otherwise InvalidState, then ArgumentRange, with nothing absorbed. `CUR` is inside the block in every state a run reaches (R38). -/
def Obligations.UpdateAbsorbsOrRejects : Prop :=
  ∀ (s : State) (offset length : BitVec 14) (payload : List Word),
    ((s.engine.phase = .created ∨ s.engine.phase = .updating) → offset.toNat + length.toNat ≤ 4 * payload.length →
      (length = 0 ∨ s.engine.cur.toNat < blockSize s.engine.dsel) →
      exec (.update offset length payload) s = .next
        { engine :=
            { s.engine.absorbBytes ((List.range length.toNat).map fun k =>
                ((payload.getD ((offset.toNat + k) / 4) 0) >>> (8 * ((offset.toNat + k) % 4))).setWidth 8) with
              phase := .updating, lastErr := .ok },
          channel := s.channel, responses := s.responses ++ [[0]] }) ∧
    ((s.engine.phase = .unconfigured ∨ s.engine.phase = .finalized) →
      exec (.update offset length payload) s = .next
        { s with engine := { s.engine with lastErr := .invalidState }, responses := s.responses ++ [[2]] }) ∧
    ((s.engine.phase = .created ∨ s.engine.phase = .updating) → 4 * payload.length < offset.toNat + length.toNat →
      exec (.update offset length payload) s = .next
        { s with engine := { s.engine with lastErr := .argumentRange }, responses := s.responses ++ [[3]] })

/-- R172: a successful UPDATE that absorbs nothing changes the phase and `LASTERR` alone; every successful UPDATE leaves `Updating`. -/
def Obligations.EmptyUpdateOnlyMovesPhase : Prop :=
  (∀ (s : State) (offset : BitVec 14) (payload : List Word),
    (s.engine.phase = .created ∨ s.engine.phase = .updating) → offset.toNat ≤ 4 * payload.length →
    exec (.update offset 0 payload) s = .next
      { s with engine := { s.engine with phase := .updating, lastErr := .ok }, responses := s.responses ++ [[0]] }) ∧
  (∀ (s t : State) (offset length : BitVec 14) (payload : List Word),
    exec (.update offset length payload) s = .next t → t.engine.lastErr = .ok → t.engine.phase = .updating)

/-- R173: FINALIZE, with the block of R146 written out, the XOR of R143, the permutation, and the digest words of R93 from the lanes
that result. With its frame: `DSEL`, the channel and the responses already sent stay. -/
def Obligations.FinalizeDigestsOrRejects : Prop :=
  ∀ s : State,
    ((s.engine.phase = .created ∨ s.engine.phase = .updating) → s.engine.cur.toNat < blockSize s.engine.dsel →
      ∃ t, exec .finalize s = .next t ∧
        t.engine.lanes = keccakF (Vector.ofFn fun i : Fin 25 =>
          if i.val < blockSize s.engine.dsel / 8 then
            s.engine.lanes[i] ^^^ laneOfBytes (finalBlockByte 0x01 s.engine) i.val
          else s.engine.lanes[i]) ∧
        t.engine.cur = 0 ∧ t.engine.phase = .finalized ∧ t.engine.lastErr = .ok ∧ t.engine.dsel = s.engine.dsel ∧
        t.channel = s.channel ∧
        t.responses = s.responses ++
          [0 :: (List.range (outLen s.engine.dsel / 4)).map (wordOfBytes (stateByte t.engine.lanes))]) ∧
    ((s.engine.phase = .unconfigured ∨ s.engine.phase = .finalized) →
      exec .finalize s = .next
        { s with engine := { s.engine with lastErr := .invalidState }, responses := s.responses ++ [[2]] })

/-- R174: RESET, in every phase. With its frame: `DSEL`, the channel and the responses already sent stay. -/
def Obligations.ResetClearsOrRejects : Prop :=
  ∀ s : State,
    ((s.engine.phase = .created ∨ s.engine.phase = .updating ∨ s.engine.phase = .finalized) →
      exec .reset s = .next
        { engine := { lanes := zeroLanes, buf := .zero, cur := 0, dsel := s.engine.dsel, phase := .created,
                      lastErr := .ok, draws := s.engine.draws },
          channel := s.channel, responses := s.responses ++ [[0]] }) ∧
    (s.engine.phase = .unconfigured →
      exec .reset s = .next
        { s with engine := { s.engine with lastErr := .invalidState }, responses := s.responses ++ [[2]] })

/-- R175 with R31: STATUS, in every state, answers the word whose fields are `PHASE`, `DSEL`, `CUR`, `LASTERR` and zeros, and changes
nothing. -/
def Obligations.StatusReportsAndChangesNothing : Prop :=
  ∀ s : State, ∃ w : Word,
    exec .status s = .next { s with responses := s.responses ++ [[0, w]] } ∧
    w.extractLsb' 0 2 = s.engine.phase.code ∧ w.extractLsb' 2 2 = s.engine.dsel.code ∧
    w.extractLsb' 4 8 = s.engine.cur ∧ w.extractLsb' 12 4 = s.engine.lastErr.code ∧ w.extractLsb' 16 16 = 0

/-- R90 and R194: exactly these transactions decode to no command, and each of them raises `IllegalCommand` in every phase, changing
nothing but `LASTERR`. -/
def Obligations.IllegalTransactionsAreExactlyThese : Prop :=
  ∀ (s : State) (t : Transaction) (rest : List ChannelEvent), s.channel = .transaction t :: rest →
    let opc := (t.command >>> 28).toNat
    let illegal :=
      opc = 0 ∨ 6 ≤ opc ∨ (opc = 1 ∧ (t.command.extractLsb' 10 18 ≠ 0 ∨ t.payload ≠ [])) ∨
        (3 ≤ opc ∧ opc ≤ 5 ∧ (t.command.extractLsb' 0 28 ≠ 0 ∨ t.payload ≠ [])) ∨
        (opc = 2 ∧ 1024 < t.payload.length)
    ((∃ r, decode t = .error r) ↔ illegal) ∧
    (illegal → step s = .next
      { engine := { s.engine with lastErr := .illegalCommand }, channel := rest, responses := s.responses ++ [[4]] })

/-! ### The step -/

/-- R177: a step takes the next transaction off the channel and runs the command it decodes to on what is left. -/
def Obligations.StepRunsDecodedCommand : Prop :=
  ∀ (s : State) (t : Transaction) (rest : List ChannelEvent) (i : Instr),
    s.channel = .transaction t :: rest → decode t = .ok i → step s = exec i { s with channel := rest }

/-- With nothing presented the engine's state does not change (R177); two overlapping transactions have no meaning (R223, U1). How both
stand in the model is its choice (notes/assumptions/2.md, notes/assumptions/3.md). -/
def Obligations.IdleStepAndOverlap : Prop :=
  (∀ s : State, s.channel = [] → step s = .next s) ∧
  (∀ (s : State) (running forced : Transaction) (rest : List ChannelEvent),
    s.channel = .overlap running forced :: rest → step s = .refused .overlappingTransactions)

/-- R80, R92: a step either finds nothing presented, or takes one transaction off the channel and adds exactly one response, which is
not empty, after those already sent. -/
def Obligations.OneResponsePerTransaction : Prop :=
  ∀ s s' : State, step s = .next s' →
    (s.channel = [] ∧ s' = s) ∨
    (∃ t rest code data, s.channel = .transaction t :: rest ∧ s'.channel = rest ∧
      s'.responses = s.responses ++ [code :: data])

/-- R195: a transaction answered with a nonzero status code changes nothing but `LASTERR`, which records that code, and the response
has no data words. -/
def Obligations.ErrorsLeaveStateUnchanged : Prop :=
  ∀ (s s' : State) (code : Word) (data : List Word), step s = .next s' →
    s'.responses = s.responses ++ [code :: data] → code ≠ 0 →
    data = [] ∧ s'.engine.lastErr.code.setWidth 32 = code ∧ s'.channel = s.channel.tail ∧
      s'.engine = { s.engine with lastErr := s'.engine.lastErr }

/-- R30: a well-formed STATUS leaves `LASTERR`; every other transaction leaves in it the code of its own response. -/
def Obligations.LastErrRecordsOutcome : Prop :=
  ∀ (s s' : State) (t : Transaction) (rest : List ChannelEvent) (code : Word) (data : List Word),
    s.channel = .transaction t :: rest → step s = .next s' → s'.responses = s.responses ++ [code :: data] →
    (decode t = .ok .status → s'.engine.lastErr = s.engine.lastErr) ∧
    (decode t ≠ .ok .status → s'.engine.lastErr.code.setWidth 32 = code)

/-- R176: the lifecycle table, every phase against every decoded command, and its ILLEGAL column. -/
def Obligations.LifecycleTable : Prop :=
  (∀ (s : State) (i : Instr), s.engine.cur.toNat < blockSize s.engine.dsel →
    ∃ t data, exec i s = .next t ∧ t.engine.phase = (lifecycle s.engine.phase i).2 ∧
      t.responses = s.responses ++ [(lifecycle s.engine.phase i).1.code.setWidth 32 :: data]) ∧
  (∀ (s : State) (t : Transaction) (rest : List ChannelEvent) (r : IllegalReason),
    s.channel = .transaction t :: rest → decode t = .error r →
    ∃ s', step s = .next s' ∧ s'.engine.phase = s.engine.phase ∧ s'.responses = s.responses ++ [[4]])

/-- R196: the order of the checks. A malformed transaction is IllegalCommand in every phase; a wrong phase is reported before a bad range;
NEW has no phase check. -/
def Obligations.ErrorPriority : Prop :=
  (∀ (s : State) (t : Transaction) (rest : List ChannelEvent) (r : IllegalReason),
    s.channel = .transaction t :: rest → decode t = .error r → ∃ s', step s = .next s' ∧ s'.responses = s.responses ++ [[4]]) ∧
  (∀ (s : State) (offset length : BitVec 14) (payload : List Word), 4 * payload.length < offset.toNat + length.toNat →
    ∃ t, exec (.update offset length payload) s = .next t ∧
      t.responses = s.responses ++
        [if s.engine.phase = .finalized ∨ s.engine.phase = .unconfigured then [2] else [3]]) ∧
  (∀ (s : State) (dsize : BitVec 10), dsize.toNat ∉ [224, 256, 384, 512] →
    ∃ t, exec (.new dsize) s = .next t ∧ t.responses = s.responses ++ [[1]])

/-- R28, R164, R38 (e): only a successful NEW changes `DSEL`, and it selects the size it names. -/
def Obligations.DigestSizeChangesOnlyByNew : Prop :=
  ∀ (s t : State) (i : Instr), exec i s = .next t → t.engine.dsel ≠ s.engine.dsel →
    ∃ d : DigestSel, i = .new (BitVec.ofNat 10 (digestBits d)) ∧ t.engine.dsel = d ∧ t.engine.phase = .created

/-- R222: until a NEW succeeds, every run of the other commands leaves the engine as it was but for `LASTERR`, and completes. -/
def Obligations.NothingButNewConfigures : Prop :=
  ∀ (s : State) (commands : List Instr), s.engine.phase = .unconfigured → (∀ dsize, Instr.new dsize ∉ commands) →
    ∃ t, execAll commands s = .next t ∧ t.engine = { s.engine with lastErr := t.engine.lastErr } ∧
      t.responses.length = s.responses.length + commands.length

/-! ### Encoding -/

/-- The words of 95_test_vectors.md V20 and V21 decode as listed there. -/
def Obligations.VectorWordsDecode : Prop :=
  decode ⟨0b00010000000000000000000011100000, []⟩ = .ok (.new 224) ∧
  decode ⟨0b00010000000000000000001111111111, []⟩ = .ok (.new 1023) ∧
  decode ⟨0b00100000000000001000000000000001, [0x64636261]⟩ = .ok (.update 1 2 [0x64636261]) ∧
  decode ⟨0b00101111111111111111111111111111, []⟩ = .ok (.update 16383 16383 []) ∧
  decode ⟨0b00110000000000000000000000000000, []⟩ = .ok .finalize ∧
  decode ⟨0b01000000000000000000000000000000, []⟩ = .ok .reset ∧
  decode ⟨0b01010000000000000000000000000000, []⟩ = .ok .status ∧
  decode ⟨0b00010000000000000000010100000000, []⟩ = .error .reservedBits ∧
  decode ⟨0b01010000000000000000000000000000, [0]⟩ = .error .strayPayload ∧
  decode ⟨0b01100000000000000000000000000000, []⟩ = .error .reservedOpcode

/-- R83 to R86, R89: every well-formed command is what its encoding decodes to, with every operand. -/
def Obligations.DecodeOfEncode : Prop :=
  ∀ i : Instr, WellFormed i = true → decode (encode i) = .ok i

/-- R89: a transaction that decodes to a command is the encoding of that command, which is well-formed: each transaction has one
meaning, and each command one transaction. -/
def Obligations.OnlyEncodingsDecode : Prop :=
  ∀ (t : Transaction) (i : Instr), decode t = .ok i → encode i = t ∧ WellFormed i = true

/-- R86, R95: the assembler's packing carries every byte to its place in the payload, and adds zero bytes up to a multiple of 4. -/
def Obligations.PackedBytesAreThePayload : Prop :=
  ∀ data : List Byte, (packBytes data).length = (data.length + 3) / 4 ∧
    ∀ j < 4 * (packBytes data).length, payloadByte (packBytes data) j = data.getD j 0

/-- R96: ABSORB expands to well-formed UPDATEs whose ranges are inside their payloads and which together absorb the data in order,
wherever the data is cut (where the model cuts it is its choice, notes/assumptions/15.md). -/
def Obligations.AbsorbLinesCarryTheData : Prop :=
  ∀ data : List Byte, ∃ us : List UpdateArgs, absorbLines data = us.map UpdateArgs.instr ∧
    (∀ u ∈ us, WellFormed u.instr = true ∧ u.inRange) ∧ us.flatMap UpdateArgs.data = data

/-! ### Byte views -/

/-- R52: the state byte view, both directions. -/
def Obligations.StateByteView : Prop :=
  ∀ (a : Lanes) (i : Fin 25),
    (∀ k < 8, stateByte a (8 * i.val + k) = (a[i] >>> (8 * k)).setWidth 8) ∧
    BitVec.ofNat 64 (memRead (stateByte a) (8 * i.val) 8) = a[i] ∧ memRead (stateByte a) (8 * i.val) 8 < 2 ^ 64

/-- R22: lane `i` occupies bits `64*i + 63` down to `64*i` of the flat vector, and byte `S[j]` bits `8*j + 7` down to `8*j`. -/
def Obligations.FlatStateView : Prop :=
  ∀ a : Lanes, (∀ i : Fin 25, (flatState a).extractLsb' (64 * i.val) 64 = a[i]) ∧
    (∀ j < 200, (flatState a).extractLsb' (8 * j) 8 = stateByte a j)

/-- R93: word `w` of a digest is the low (`w` even) or high (`w` odd) half of lane `w div 2`, for `OUTLEN/4` words. -/
def Obligations.DigestWordsAreLaneHalves : Prop :=
  ∀ (e : Engine) (w : Nat),
    (digestWords e.squeeze)[w]? =
      if w < outLen e.dsel / 4 then some ((e.lanes.toList.getD (w / 2) 0 >>> (32 * (w % 2))).setWidth 32) else none

/-- R12, R51: a wide read of what a wide write stored gives the value back, and every other byte reads as before. -/
def Obligations.WideReadAfterWrite : Prop :=
  ∀ (m : Memory) (a n v : Nat),
    memRead (m.writeWide a n v).read a n = v % 256 ^ n ∧
    (∀ j, j < a ∨ a + n ≤ j → (m.writeWide a n v).read j = m.read j)

/-! ### The rate controller -/

/-- R160 and R161: the rate table, with capacity, block size and output length as the formulas give them. -/
def Obligations.RateTableAndFormulas : Prop :=
  ∀ d : DigestSel,
    (digestBits d, d.code, rate d) ∈ [(224, 0, 1152), (256, 1, 1088), (384, 2, 832), (512, 3, 576)] ∧
    capacity d = 1600 - rate d ∧ capacity d = 2 * digestBits d ∧ 8 * blockSize d = rate d ∧ 8 * outLen d = digestBits d

/-! ### The permutation -/

/-- R11: the rotation, by its formula and bit by bit. -/
def Obligations.RotationBits : Prop :=
  ∀ (x : Lane) (n : Nat),
    (n % 64 = 0 → rol x n = x) ∧
    (n % 64 ≠ 0 → rol x n = (x <<< (n % 64)) ||| (x >>> (64 - n % 64))) ∧
    (∀ i < 64, (rol x n).getLsbD ((i + n) % 64) = x.getLsbD i)

/-- R116: PI moves the lane at `(x,y)` to `(y, 2x + 3y)`; the tables of R113 are inverse to each other and say the same. -/
def Obligations.PiMovesLanes : Prop :=
  (∀ (a : Lanes) (x y : Fin 5), laneAt (pi a) y.val (2 * x.val + 3 * y.val) = laneAt a x.val y.val) ∧
  (∀ (a : Lanes) (i : Fin 25), (pi a)[piDst[i]] = a[i]) ∧ (∀ i : Fin 25, piSrc[piDst[i]] = i)

/-- R121: the five steps, bit by bit. -/
def Obligations.StepsBitByBit : Prop :=
  ∀ (a : Lanes) (x y : Fin 5) (z : Nat), z < 64 →
    ((laneAt (theta a) x.val y.val).getLsbD z =
      ((laneAt a x.val y.val).getLsbD z ^^ parityBit a (x.val + 4) z ^^ parityBit a (x.val + 1) (z + 63))) ∧
    ((laneAt (rho a) x.val y.val).getLsbD ((z + rotTable.toList.getD (x.val + 5 * y.val) 0) % 64) =
      (laneAt a x.val y.val).getLsbD z) ∧
    ((laneAt (pi a) y.val (2 * x.val + 3 * y.val)).getLsbD z = (laneAt a x.val y.val).getLsbD z) ∧
    ((laneAt (chi a) x.val y.val).getLsbD z =
      ((laneAt a x.val y.val).getLsbD z ^^
        (((laneAt a (x.val + 1) y.val).getLsbD z ^^ true) && (laneAt a (x.val + 2) y.val).getLsbD z))) ∧
    (∀ ir : Fin 24, (laneAt (iota a ir) x.val y.val).getLsbD z =
      if x = 0 ∧ y = 0 then (laneAt a 0 0).getLsbD z ^^ (rcTable[ir]).getLsbD z else (laneAt a x.val y.val).getLsbD z)

/-- R120: RHO followed by PI is one rewiring. -/
def Obligations.RhoPiIsOneRewiring : Prop :=
  ∀ (a : Lanes) (x y : Fin 5),
    laneAt (pi (rho a)) y.val (2 * x.val + 3 * y.val) =
      rol (laneAt a x.val y.val) (rotTable.toList.getD (x.val + 5 * y.val) 0)

/-- R119, R124: KECCAK_F is 24 rounds, each theta, rho, pi, chi, iota in that order, the round index running upward from 0 to 23. -/
def Obligations.PermutationIsTwentyFourRounds : Prop :=
  ∀ b : Nat → Lanes, (∀ ir : Fin 24, b (ir.val + 1) = iota (chi (pi (rho (theta (b ir.val))))) ir) →
    keccakF (b 0) = b 24

/-- R123, in part: the four steps that act on single lanes, bits or rows are bijections. -/
def Obligations.LocalStepsAreBijections : Prop :=
  Function.Bijective rho ∧ Function.Bijective pi ∧ Function.Bijective chi ∧ ∀ ir, Function.Bijective fun a => iota a ir

/-- R123: Keccak-f[1600] is a bijection of the 1600-bit states, and each of the five steps is one. -/
def Obligations.PermutationIsBijection : Prop :=
  Function.Bijective theta ∧ Function.Bijective rho ∧ Function.Bijective pi ∧ Function.Bijective chi ∧
    (∀ ir, Function.Bijective fun a => iota a ir) ∧ Function.Bijective keccakF

/-! ### The sponge -/

/-- R143: XOR_BLOCK, lane by lane and byte by byte; the capacity lanes and every other field stay. -/
def Obligations.XorBlockLanesAndBytes : Prop :=
  ∀ e : Engine,
    (∀ i : Fin 25, e.xorBlock.lanes[i] =
      if i.val < blockSize e.dsel / 8 then e.lanes[i] ^^^ laneOfBytes e.buf.read i.val else e.lanes[i]) ∧
    (∀ j < 200, stateByte e.xorBlock.lanes j =
      if j < blockSize e.dsel then stateByte e.lanes j ^^^ e.buf.read j else stateByte e.lanes j) ∧
    e.xorBlock = { e with lanes := e.xorBlock.lanes }

/-- R146: the block PAD produces, for every cursor inside the block and every first padding byte; `CUR` and every field but the buffer
stay, and so does every byte outside the block. -/
def Obligations.PadCompletesTheBlock : Prop :=
  ∀ (e : Engine) (first : Byte), e.cur.toNat < blockSize e.dsel →
    (∀ j < blockSize e.dsel, (e.pad first).buf.read j = finalBlockByte first e j) ∧
    (∀ j, blockSize e.dsel ≤ j → (e.pad first).buf.read j = e.buf.read j) ∧
    e.pad first = { e with buf := (e.pad first).buf }

/-- R142: the cursor and the number of block absorptions after ABSORB_BYTES, whatever the number of blocks crossed. `draws` counts the
absorptions and is the model's own field (notes/assumptions/1.md). -/
def Obligations.AbsorbCursorAndBlockCount : Prop :=
  ∀ (e : Engine) (data : List Byte), e.cur.toNat < blockSize e.dsel →
    (e.absorbBytes data).cur.toNat = (e.cur.toNat + data.length) % blockSize e.dsel ∧
    (e.absorbBytes data).draws = e.draws + (e.cur.toNat + data.length) / blockSize e.dsel

/-- The frame of UPDATE (R141, R142, R171). `DSEL`, the channel and the responses already sent stay. Where no block fills, the lanes stay
and every buffer byte stays but those stored, which begin at the cursor. Where a block fills, the pending bytes are the last bytes
absorbed. -/
def Obligations.UpdateFrame : Prop :=
  ∀ (s t : State) (offset length : BitVec 14) (payload : List Word),
    s.engine.cur.toNat < blockSize s.engine.dsel → exec (.update offset length payload) s = .next t →
    t.engine.dsel = s.engine.dsel ∧ t.channel = s.channel ∧ t.responses.dropLast = s.responses ∧
    (t.engine.lastErr ≠ .ok → t.engine.lanes = s.engine.lanes ∧ t.engine.buf = s.engine.buf ∧
      t.engine.cur = s.engine.cur ∧ t.engine.phase = s.engine.phase) ∧
    (t.engine.lastErr = .ok → s.engine.cur.toNat + length.toNat < blockSize s.engine.dsel →
      t.engine.lanes = s.engine.lanes ∧
      ∀ j, t.engine.buf.read j =
        if s.engine.cur.toNat ≤ j ∧ j < s.engine.cur.toNat + length.toNat then
          payloadByte payload (offset.toNat + (j - s.engine.cur.toNat))
        else s.engine.buf.read j) ∧
    (t.engine.lastErr = .ok → blockSize s.engine.dsel ≤ s.engine.cur.toNat + length.toNat →
      ∀ j < t.engine.cur.toNat, t.engine.buf.read j =
        payloadByte payload (offset.toNat + length.toNat - t.engine.cur.toNat + j))

/-- The frame of the commands that store no message byte (R170, R173, R174, R175). In each, the channel and the responses already sent
stay. NEW writes `DSEL`; the others do not. STATUS leaves the whole engine; a command that fails leaves all but `LASTERR`; NEW and RESET
store 0x00 to every buffer byte; FINALIZE leaves every buffer byte unspecified (R26), so nothing is said of one. -/
def Obligations.OtherCommandsFrame : Prop :=
  ∀ s t : State,
    (∀ dsize, exec (.new dsize) s = .next t → t.channel = s.channel ∧ t.responses.dropLast = s.responses ∧
      (if t.engine.lastErr = .ok then ∀ j, t.engine.buf.read j = 0
       else t.engine = { s.engine with lastErr := t.engine.lastErr })) ∧
    (exec .reset s = .next t → t.channel = s.channel ∧ t.responses.dropLast = s.responses ∧
      t.engine.dsel = s.engine.dsel ∧
      (if t.engine.lastErr = .ok then ∀ j, t.engine.buf.read j = 0
       else t.engine = { s.engine with lastErr := t.engine.lastErr })) ∧
    (exec .finalize s = .next t → t.channel = s.channel ∧ t.responses.dropLast = s.responses ∧
      t.engine.dsel = s.engine.dsel ∧
      (t.engine.lastErr ≠ .ok → t.engine = { s.engine with lastErr := t.engine.lastErr })) ∧
    (exec .status s = .next t → t.channel = s.channel ∧ t.responses.dropLast = s.responses ∧ t.engine = s.engine)

/-- R152, on the machine: two UPDATEs leave the very engine one UPDATE of their bytes together leaves, so every later response is the
same, FINALIZE's digest among them. R152 claims this of `A`, `BUF[0 .. CUR-1]` and `CUR`. That the model's own count of draws and the
unspecified buffer bytes at and above `CUR` (R26, U6) are equal too is no rule of the spec: it follows from the model's numbering of
the free values (notes/assumptions/1.md, notes/assumptions/14.md). -/
def Obligations.StreamingEquivalence : Prop :=
  ∀ (s s1 s2 s' : State) (u1 u2 u : UpdateArgs), u.data = u1.data ++ u2.data →
    exec u1.instr s = .next s1 → exec u2.instr s1 = .next s2 → exec u.instr s = .next s' →
    s1.engine.lastErr = .ok → s2.engine.lastErr = .ok → s'.engine.lastErr = .ok →
    s2.engine = s'.engine ∧
    ∀ t2 t', exec .finalize s2 = .next t2 → exec .finalize s' = .next t' →
      ∃ r : Response, t2.responses = s2.responses ++ [r] ∧ t'.responses = s'.responses ++ [r]

/-- R153, R178, R180 in one: from ANY state, NEW, then any UPDATEs in range, then FINALIZE completes, and its response is the digest of
the bytes absorbed as the reference hash gives it, with this hardware's `PAD_BYTE` = 0x01. -/
def Obligations.DigestIsTheReferenceHash : Prop :=
  ∀ (s : State) (d : DigestSel) (us : List UpdateArgs), (∀ u ∈ us, u.inRange) →
    ∃ t, execAll (Instr.new (BitVec.ofNat 10 (digestBits d)) :: us.map UpdateArgs.instr ++ [Instr.finalize]) s = .next t ∧
      t.responses = s.responses ++ List.replicate (us.length + 1) [0] ++
        [0 :: digestWords (spongeHash 0x01 d (us.flatMap UpdateArgs.data))]

/-- R152 and R153: from ANY two states, a NEW of one size and two ways of cutting the same bytes into UPDATEs, each ended by FINALIZE, give
the same digest, answered with status code 0. -/
def Obligations.AnySplitGivesTheSameDigest : Prop :=
  ∀ (s1 s2 : State) (d : DigestSel) (us vs : List UpdateArgs), (∀ u ∈ us, u.inRange) → (∀ v ∈ vs, v.inRange) →
    us.flatMap UpdateArgs.data = vs.flatMap UpdateArgs.data →
    ∃ t1 t2 digest,
      execAll (Instr.new (BitVec.ofNat 10 (digestBits d)) :: us.map UpdateArgs.instr ++ [Instr.finalize]) s1 = .next t1 ∧
      execAll (Instr.new (BitVec.ofNat 10 (digestBits d)) :: vs.map UpdateArgs.instr ++ [Instr.finalize]) s2 = .next t2 ∧
      t1.responses.getLast? = some (0 :: digest) ∧ t2.responses.getLast? = some (0 :: digest)

/-- R179: RESET leaves the state a NEW of the same size leaves, field for field, so every later response is the same. -/
def Obligations.ResetActsAsNewOfTheSameSize : Prop :=
  ∀ s : State, s.engine.phase ≠ .unconfigured →
    ∃ t, exec .reset s = .next t ∧ exec (.new (BitVec.ofNat 10 (digestBits s.engine.dsel))) s = .next t

/-- R180: a successful FINALIZE answers the status word and exactly `digest_size / 32` data words, a failing one the status word alone. -/
def Obligations.FixedOutputLength : Prop :=
  ∀ s : State, s.engine.cur.toNat < blockSize s.engine.dsel →
    ∃ t code data, exec .finalize s = .next t ∧ t.responses = s.responses ++ [code :: data] ∧
      data.length = if s.engine.phase = .created ∨ s.engine.phase = .updating then digestBits s.engine.dsel / 32 else 0

/-! ### The invariant -/

/-- The invariant holds at reset (R36, R38 (d)). -/
def Obligations.InvariantHoldsAtReset : Prop :=
  State.reset.Inv

/-- R38, from every state that meets it: the cursor stays inside the block, it is zero but in `Updating`, the lanes are zero in `Created`,
everything is zero in `Unconfigured`; and the buffer keeps its canonical form, its pending bytes written. -/
def Obligations.StepKeepsInvariant : Prop :=
  ∀ s s' : State, s.Inv → step s = .next s' → s'.Inv

/-- R227: from every state that meets the invariant, the engine answers whatever transaction is presented: it neither faults nor refuses,
unless the host breaks R223. -/
def Obligations.EngineNeverStops : Prop :=
  ∀ s : State, s.Inv → s.serial → ∃ s', step s = .next s'

/-- R26, U6: no step lets the unspecified buffer bytes be seen. Two states alike in everything a rule can read, whatever their other
buffer bytes hold, answer alike and stay alike. -/
def Obligations.UnspecifiedBytesAreInvisible : Prop :=
  ∀ s1 s2 t1 : State, s1.engine.SameVisible s2.engine → s1.channel = s2.channel → s1.responses = s2.responses →
    step s1 = .next t1 →
    ∃ t2, step s2 = .next t2 ∧ t1.engine.SameVisible t2.engine ∧ t1.channel = t2.channel ∧ t1.responses = t2.responses

/-- R39, R203: a step of one engine of a chip is that engine's step and leaves every other engine as it was. -/
def Obligations.EnginesOfAChipAreIndependent : Prop :=
  ∀ (chip chip' : Chip) (n : Nat) (s : State), chip[n]? = some s → chip.step n = .next chip' →
    (∃ s', step s = .next s' ∧ chip'[n]? = some s') ∧ chip'.length = chip.length ∧
    ∀ k, k ≠ n → chip'[k]? = chip[k]?
end

