-- ==== Sys2Proof/Laws/Memory.lean ====
section
/-! SUPPORT. The pending buffer as a memory: a read after a write, and that every operation keeps the canonical form. -/

namespace Sys2Proof
namespace Machine

theorem lookupCell_insertCell (cells : List Host.Cell) (j i : Nat) (b : Byte) :
    lookupCell (insertCell cells j b) i = if j = i then some b else lookupCell cells i := by
  induction cells with
  | nil => simp [insertCell, lookupCell]
  | cons c rest ih =>
    obtain ⟨a, c⟩ := c
    simp only [insertCell]
    split
    · simp [lookupCell]
    · split
      · subst_vars
        by_cases h : a = i <;> simp [lookupCell, h]
      · simp only [lookupCell, ih]
        split <;> split <;> first | rfl | omega

theorem lookupCell_eraseCell (cells : List Host.Cell) (j i : Nat) :
    lookupCell (eraseCell cells j) i = if j = i then none else lookupCell cells i := by
  induction cells with
  | nil => simp [eraseCell, lookupCell]
  | cons c rest ih =>
    obtain ⟨a, c⟩ := c
    unfold eraseCell at ih ⊢
    by_cases haj : a = j
    · subst haj
      simp only [List.filter_cons, ne_eq, not_true, decide_false, Bool.false_eq_true, if_false, ih]
      by_cases h : a = i <;> simp [lookupCell, h]
    · simp only [List.filter_cons, ne_eq, haj, not_false_eq_true, decide_true, if_true, lookupCell, ih]
      split <;> split <;> first | rfl | omega

@[simp] theorem Memory.write_lost (m : Memory) (j : Nat) (b : Byte) : (m.write j b).lost = m.lost := by
  unfold Memory.write
  split <;> rfl

/-- A read after a write: the byte written, and every other byte as before. -/
theorem Memory.read_write (m : Memory) (j i : Nat) (b : Byte) :
    (m.write j b).read i = if i = j then b else m.read i := by
  unfold Memory.write Memory.read
  split
  · rename_i h
    by_cases hij : i = j
    · subst hij
      simp [lookupCell_eraseCell, Memory.unlisted, h.1, h.2]
    · simp [lookupCell_eraseCell, hij, Ne.symm hij, Memory.unlisted]
  · by_cases hij : i = j
    · subst hij
      simp [lookupCell_insertCell]
    · simp [lookupCell_insertCell, hij, Ne.symm hij, Memory.unlisted]

@[simp] theorem Memory.read_write_self (m : Memory) (j : Nat) (b : Byte) : (m.write j b).read j = b := by
  simp [Memory.read_write]

theorem Memory.read_write_other (m : Memory) {j i : Nat} (b : Byte) (h : i ≠ j) : (m.write j b).read i = m.read i := by
  simp [Memory.read_write, h]

@[simp] theorem Memory.read_zero (j : Nat) : Memory.zero.read j = 0 := rfl

/-- A byte is specified once it is written, and stays so. -/
theorem Memory.specified_write (m : Memory) (j i : Nat) (b : Byte) :
    (m.write j b).specified i = (m.specified i || decide (i = j)) := by
  unfold Memory.specified
  rw [Memory.write_lost]
  unfold Memory.write
  split
  · rename_i h
    simp [h.1]
  · by_cases hij : i = j
    · subst hij
      simp [lookupCell_insertCell]
    · simp [lookupCell_insertCell, hij, Ne.symm hij]

theorem mem_insertCell {cells : List Host.Cell} {j : Nat} {b : Byte} {c : Host.Cell} (h : c ∈ insertCell cells j b) :
    c = (j, b) ∨ c ∈ cells := by
  induction cells with
  | nil => simpa [insertCell] using h
  | cons d rest ih =>
    simp only [insertCell] at h
    split at h
    · simpa using h
    · split at h
      · rcases List.mem_cons.1 h with h | h
        · exact .inl h
        · exact .inr (List.mem_cons_of_mem _ h)
      · rcases List.mem_cons.1 h with h | h
        · exact .inr (by simp [h])
        · rcases ih h with h | h
          · exact .inl h
          · exact .inr (List.mem_cons_of_mem _ h)

theorem insertCell_rising {cells : List Host.Cell} (j : Nat) (b : Byte) (h : cells.Pairwise fun x y => x.1 < y.1) :
    (insertCell cells j b).Pairwise fun x y => x.1 < y.1 := by
  induction cells with
  | nil => simp [insertCell]
  | cons d rest ih =>
    obtain ⟨hd, hrest⟩ := List.pairwise_cons.1 h
    simp only [insertCell]
    split
    · rename_i hj
      refine List.pairwise_cons.2 ⟨fun y hy => ?_, h⟩
      rcases List.mem_cons.1 hy with rfl | hy
      · exact hj
      · exact Nat.lt_trans hj (hd y hy)
    · split
      · rename_i hj
        exact List.pairwise_cons.2 ⟨fun y hy => by simpa [hj] using hd y hy, hrest⟩
      · rename_i h1 h2
        refine List.pairwise_cons.2 ⟨fun y hy => ?_, ih hrest⟩
        rcases mem_insertCell hy with rfl | hy
        · show d.1 < j
          omega
        · exact hd y hy

/-- A write inside the physical buffer keeps the canonical form. -/
theorem Memory.wf_write {m : Memory} (h : m.wf) {j : Nat} (hj : j < Config.kse1.bufPhys) (b : Byte) : (m.write j b).wf := by
  obtain ⟨h1, h2, h3⟩ := h
  unfold Memory.write
  split
  · refine ⟨h1.filter _, fun c hc => h2 c (List.mem_filter.1 hc).1, fun hl c hc => h3 hl c (List.mem_filter.1 hc).1⟩
  · rename_i hb
    refine ⟨insertCell_rising j b h1, fun c hc => ?_, fun hl c hc => ?_⟩
    · rcases mem_insertCell hc with rfl | hc
      · exact hj
      · exact h2 c hc
    · rcases mem_insertCell hc with rfl | hc
      · exact fun hz => hb ⟨hl, hz⟩
      · exact h3 hl c hc

theorem Memory.wf_zero : Memory.zero.wf := by
  simp [Memory.wf, Memory.zero]

theorem Memory.wf_lose (draw : Nat) : (Memory.lose draw).wf := by
  simp [Memory.wf, Memory.lose]

/-- A wide write inside the physical buffer keeps the canonical form. -/
theorem Memory.wf_writeWide {m : Memory} (h : m.wf) {a n : Nat} (hn : a + n ≤ Config.kse1.bufPhys) (v : Nat) :
    (m.writeWide a n v).wf := by
  unfold Memory.writeWide
  have key : ∀ l : List Nat, (∀ k ∈ l, k < n) → ∀ m : Memory, m.wf →
      (l.foldl (fun m k => m.write (a + k) (byteAt v k)) m).wf := by
    intro l
    induction l with
    | nil => intro _ m hm; exact hm
    | cons k rest ih =>
      intro hl m hm
      have hk := hl k (by simp)
      exact ih (fun k hk => hl k (by simp [hk])) _ (Memory.wf_write hm (by omega) _)
  exact key _ (fun k hk => List.mem_range.1 hk) m h

end Machine
end Sys2Proof
end

