-- ==== Sys2Proof/Laws/PerInstr.lean ====
section
/-! SUPPORT. Facts about every command as syntax, one lemma per constructor. -/

namespace Sys2Proof
namespace Laws

/-- The operation code of each command (R82). -/
def opcodeNumber : Instr → BitVec 4
  | .new _ => 1
  | .update _ _ _ => 2
  | .finalize => 3
  | .reset => 4
  | .status => 5

namespace OpcodeField

/-- Bits 31:28 of the encoded command word are the command's operation code (R81, R82). -/
def Statement (i : Instr) : Prop :=
  opcodeOf (encode i).command = opcodeNumber i

theorem new (dsize : BitVec 10) : Statement (.new dsize) := by
  unfold Statement opcodeOf encode opcodeNumber
  apply BitVec.eq_of_getLsbD_eq
  intro k hk
  have h : k = 0 ∨ k = 1 ∨ k = 2 ∨ k = 3 := by omega
  rcases h with rfl | rfl | rfl | rfl <;> simp

theorem update (offset length : BitVec 14) (payload : List Word) : Statement (.update offset length payload) := by
  unfold Statement opcodeOf encode opcodeNumber
  apply BitVec.eq_of_getLsbD_eq
  intro k hk
  have h : k = 0 ∨ k = 1 ∨ k = 2 ∨ k = 3 := by omega
  rcases h with rfl | rfl | rfl | rfl <;> simp

theorem finalize : Statement .finalize := by
  unfold Statement
  decide

theorem reset : Statement .reset := by
  unfold Statement
  decide

theorem status : Statement .status := by
  unfold Statement
  decide

end OpcodeField
end Laws
end Sys2Proof
end

