-- ==== Sys2Proof/Laws/State.lean ====
section
/-! SUPPORT. One lemma per field per named update of the state, each true by unfolding that update once, so that no later proof unfolds a record update. -/

namespace Sys2Proof
namespace Machine

/-! ### `Engine.clear` -/

@[simp] theorem Engine.clear_lanes (e : Engine) : e.clear.lanes = zeroLanes := rfl
@[simp] theorem Engine.clear_buf (e : Engine) : e.clear.buf = .zero := rfl
@[simp] theorem Engine.clear_cur (e : Engine) : e.clear.cur = 0 := rfl
@[simp] theorem Engine.clear_dsel (e : Engine) : e.clear.dsel = e.dsel := rfl
@[simp] theorem Engine.clear_phase (e : Engine) : e.clear.phase = e.phase := rfl
@[simp] theorem Engine.clear_lastErr (e : Engine) : e.clear.lastErr = e.lastErr := rfl
@[simp] theorem Engine.clear_draws (e : Engine) : e.clear.draws = e.draws := rfl

/-! ### `Engine.putByte` -/

@[simp] theorem Engine.putByte_lanes (e : Engine) (b : Byte) : (e.putByte b).lanes = e.lanes := rfl
@[simp] theorem Engine.putByte_buf (e : Engine) (b : Byte) : (e.putByte b).buf = e.buf.write e.cur.toNat b := rfl
@[simp] theorem Engine.putByte_cur (e : Engine) (b : Byte) : (e.putByte b).cur = e.cur + 1 := rfl
@[simp] theorem Engine.putByte_dsel (e : Engine) (b : Byte) : (e.putByte b).dsel = e.dsel := rfl
@[simp] theorem Engine.putByte_phase (e : Engine) (b : Byte) : (e.putByte b).phase = e.phase := rfl
@[simp] theorem Engine.putByte_lastErr (e : Engine) (b : Byte) : (e.putByte b).lastErr = e.lastErr := rfl
@[simp] theorem Engine.putByte_draws (e : Engine) (b : Byte) : (e.putByte b).draws = e.draws := rfl

/-! ### `Engine.xorBlock`: every field but the lanes -/

@[simp] theorem Engine.xorBlock_buf (e : Engine) : e.xorBlock.buf = e.buf := by simp only [Engine.xorBlock]
@[simp] theorem Engine.xorBlock_cur (e : Engine) : e.xorBlock.cur = e.cur := by simp only [Engine.xorBlock]
@[simp] theorem Engine.xorBlock_dsel (e : Engine) : e.xorBlock.dsel = e.dsel := by simp only [Engine.xorBlock]
@[simp] theorem Engine.xorBlock_phase (e : Engine) : e.xorBlock.phase = e.phase := by simp only [Engine.xorBlock]
@[simp] theorem Engine.xorBlock_lastErr (e : Engine) : e.xorBlock.lastErr = e.lastErr := by simp only [Engine.xorBlock]
@[simp] theorem Engine.xorBlock_draws (e : Engine) : e.xorBlock.draws = e.draws := by simp only [Engine.xorBlock]

/-! ### `Engine.absorbBlock` -/

@[simp] theorem Engine.absorbBlock_lanes (e : Engine) : e.absorbBlock.lanes = keccakF e.xorBlock.lanes := by simp [Engine.absorbBlock]
@[simp] theorem Engine.absorbBlock_buf (e : Engine) : e.absorbBlock.buf = .lose e.draws := by simp [Engine.absorbBlock]
@[simp] theorem Engine.absorbBlock_cur (e : Engine) : e.absorbBlock.cur = 0 := by simp [Engine.absorbBlock]
@[simp] theorem Engine.absorbBlock_dsel (e : Engine) : e.absorbBlock.dsel = e.dsel := by simp [Engine.absorbBlock]
@[simp] theorem Engine.absorbBlock_phase (e : Engine) : e.absorbBlock.phase = e.phase := by simp [Engine.absorbBlock]
@[simp] theorem Engine.absorbBlock_lastErr (e : Engine) : e.absorbBlock.lastErr = e.lastErr := by simp [Engine.absorbBlock]
@[simp] theorem Engine.absorbBlock_draws (e : Engine) : e.absorbBlock.draws = e.draws + 1 := by simp [Engine.absorbBlock]

/-! ### `Engine.pad`: every field but the buffer -/

@[simp] theorem Engine.pad_lanes (e : Engine) (first : Byte) : (e.pad first).lanes = e.lanes := by simp only [Engine.pad]
@[simp] theorem Engine.pad_cur (e : Engine) (first : Byte) : (e.pad first).cur = e.cur := by simp only [Engine.pad]
@[simp] theorem Engine.pad_dsel (e : Engine) (first : Byte) : (e.pad first).dsel = e.dsel := by simp only [Engine.pad]
@[simp] theorem Engine.pad_phase (e : Engine) (first : Byte) : (e.pad first).phase = e.phase := by simp only [Engine.pad]
@[simp] theorem Engine.pad_lastErr (e : Engine) (first : Byte) : (e.pad first).lastErr = e.lastErr := by simp only [Engine.pad]
@[simp] theorem Engine.pad_draws (e : Engine) (first : Byte) : (e.pad first).draws = e.draws := by simp only [Engine.pad]

/-! ### `Engine.absorbFinal` -/

@[simp] theorem Engine.absorbFinal_lanes (e : Engine) (first : Byte) : (e.absorbFinal first).lanes = keccakF (e.pad first).xorBlock.lanes := by simp [Engine.absorbFinal]
@[simp] theorem Engine.absorbFinal_buf (e : Engine) (first : Byte) : (e.absorbFinal first).buf = .lose e.draws := by simp [Engine.absorbFinal]
@[simp] theorem Engine.absorbFinal_cur (e : Engine) (first : Byte) : (e.absorbFinal first).cur = 0 := by simp [Engine.absorbFinal]
@[simp] theorem Engine.absorbFinal_dsel (e : Engine) (first : Byte) : (e.absorbFinal first).dsel = e.dsel := by simp [Engine.absorbFinal]
@[simp] theorem Engine.absorbFinal_phase (e : Engine) (first : Byte) : (e.absorbFinal first).phase = e.phase := by simp [Engine.absorbFinal]
@[simp] theorem Engine.absorbFinal_lastErr (e : Engine) (first : Byte) : (e.absorbFinal first).lastErr = e.lastErr := by simp [Engine.absorbFinal]
@[simp] theorem Engine.absorbFinal_draws (e : Engine) (first : Byte) : (e.absorbFinal first).draws = e.draws + 1 := by simp [Engine.absorbFinal]

/-! ### Answering a transaction -/

@[simp] theorem State.respond_engine (s : State) (c : Status) (d : List Word) : (s.respond c d).engine = s.engine := rfl
@[simp] theorem State.respond_channel (s : State) (c : Status) (d : List Word) : (s.respond c d).channel = s.channel := rfl
@[simp] theorem State.respond_responses (s : State) (c : Status) (d : List Word) :
    (s.respond c d).responses = s.responses ++ [c.code.setWidth 32 :: d] := rfl

@[simp] theorem State.raise_engine (s : State) (c : Status) :
    (s.raise c).engine = { s.engine with lastErr := c } := rfl
@[simp] theorem State.raise_channel (s : State) (c : Status) : (s.raise c).channel = s.channel := rfl
@[simp] theorem State.raise_responses (s : State) (c : Status) :
    (s.raise c).responses = s.responses ++ [[c.code.setWidth 32]] := rfl

@[simp] theorem State.succeed_engine (s : State) (e : Engine) (d : List Word) :
    (s.succeed e d).engine = { e with lastErr := .ok } := rfl
@[simp] theorem State.succeed_channel (s : State) (e : Engine) (d : List Word) : (s.succeed e d).channel = s.channel := rfl
@[simp] theorem State.succeed_responses (s : State) (e : Engine) (d : List Word) :
    (s.succeed e d).responses = s.responses ++ [0 :: d] := rfl

/-! ### Hardware reset -/

@[simp] theorem State.hardwareReset_engine (s : State) :
    s.hardwareReset.engine = { Engine.reset with draws := s.engine.draws } := rfl
@[simp] theorem State.hardwareReset_channel (s : State) : s.hardwareReset.channel = s.channel := rfl
@[simp] theorem State.hardwareReset_responses (s : State) : s.hardwareReset.responses = s.responses := rfl

end Machine
end Sys2Proof
end

