-- ==== Sys2Proof/Laws/Sponge.lean ====
section
/-! SUPPORT. The sponge operations, each said once: the block size, what one absorbed byte can do, ABSORB_BYTES as a fold, and what the
operations leave alone. -/

namespace Sys2Proof
namespace Machine

theorem blockSize_pos (d : DigestSel) : 0 < blockSize d := by cases d <;> decide

theorem blockSize_le (d : DigestSel) : blockSize d ≤ 144 := by cases d <;> decide

theorem blockSize_dvd (d : DigestSel) : 8 ∣ blockSize d := by cases d <;> decide

theorem blockSize_eq (d : DigestSel) : 8 * (blockSize d / 8) = blockSize d := by cases d <;> decide

/-- KECCAK_F, unfolded once: 24 rounds. -/
theorem keccakF_eq (a : Lanes) : keccakF a = (List.finRange 24).foldl round a := by
  unfold keccakF
  rfl

/-- XOR_BLOCK, lane by lane. -/
theorem Engine.xorBlock_lane (e : Engine) (i : Fin 25) :
    e.xorBlock.lanes[i] =
      if i.val < blockSize e.dsel / 8 then e.lanes[i] ^^^ BitVec.ofNat 64 (memRead e.buf.read (8 * i.val) 8)
      else e.lanes[i] := by
  simp only [Engine.xorBlock, Fin.getElem_fin, Vector.getElem_ofFn]

/-- The cursor after PUT_BYTE does not wrap inside a block. -/
theorem Engine.putByte_cur_toNat (e : Engine) (b : Byte) (h : e.cur.toNat < blockSize e.dsel) :
    (e.putByte b).cur.toNat = e.cur.toNat + 1 := by
  have := blockSize_le e.dsel
  rw [Engine.putByte_cur, BitVec.toNat_add]
  simp
  omega

/-- One absorbed byte: it is buffered, or it fills the block, which is then absorbed. -/
theorem Engine.absorbByte_cases (e : Engine) (b : Byte) :
    ((e.putByte b).cur.toNat = blockSize e.dsel ∧ e.absorbByte b = (e.putByte b).absorbBlock) ∨
    ((e.putByte b).cur.toNat ≠ blockSize e.dsel ∧ e.absorbByte b = e.putByte b) := by
  unfold Engine.absorbByte
  split <;> simp_all

@[simp] theorem Engine.absorbByte_dsel (e : Engine) (b : Byte) : (e.absorbByte b).dsel = e.dsel := by
  rcases e.absorbByte_cases b with ⟨_, h⟩ | ⟨_, h⟩ <;> simp [h]

@[simp] theorem Engine.absorbByte_phase (e : Engine) (b : Byte) : (e.absorbByte b).phase = e.phase := by
  rcases e.absorbByte_cases b with ⟨_, h⟩ | ⟨_, h⟩ <;> simp [h]

@[simp] theorem Engine.absorbByte_lastErr (e : Engine) (b : Byte) : (e.absorbByte b).lastErr = e.lastErr := by
  rcases e.absorbByte_cases b with ⟨_, h⟩ | ⟨_, h⟩ <;> simp [h]

/-- One absorbed byte inside a block: buffered below the last index, and the block absorbed at the last index. -/
theorem Engine.absorbByte_eq (e : Engine) (b : Byte) (h : e.cur.toNat < blockSize e.dsel) :
    e.absorbByte b = if e.cur.toNat + 1 = blockSize e.dsel then (e.putByte b).absorbBlock else e.putByte b := by
  unfold Engine.absorbByte
  rw [Engine.putByte_cur_toNat e b h]

@[simp] theorem Engine.absorbBytes_nil (e : Engine) : e.absorbBytes [] = e := rfl

@[simp] theorem Engine.absorbBytes_cons (e : Engine) (b : Byte) (data : List Byte) :
    e.absorbBytes (b :: data) = (e.absorbByte b).absorbBytes data := rfl

theorem Engine.absorbBytes_append (e : Engine) (data more : List Byte) :
    e.absorbBytes (data ++ more) = (e.absorbBytes data).absorbBytes more :=
  List.foldl_append

@[simp] theorem Engine.absorbBytes_dsel (e : Engine) (data : List Byte) : (e.absorbBytes data).dsel = e.dsel := by
  induction data generalizing e with
  | nil => rfl
  | cons b rest ih => simp [ih]

@[simp] theorem Engine.absorbBytes_phase (e : Engine) (data : List Byte) : (e.absorbBytes data).phase = e.phase := by
  induction data generalizing e with
  | nil => rfl
  | cons b rest ih => simp [ih]

@[simp] theorem Engine.absorbBytes_lastErr (e : Engine) (data : List Byte) : (e.absorbBytes data).lastErr = e.lastErr := by
  induction data generalizing e with
  | nil => rfl
  | cons b rest ih => simp [ih]

@[simp] theorem selectedBytes_length (offset length : BitVec 14) (payload : List Word) :
    (selectedBytes offset length payload).length = length.toNat := by
  simp [selectedBytes]

@[simp] theorem Engine.squeeze_length (e : Engine) : e.squeeze.length = outLen e.dsel := by
  simp [Engine.squeeze]

@[simp] theorem digestWords_length (digest : List Byte) : (digestWords digest).length = digest.length / 4 := by
  simp [digestWords]

/-- A write of zeros over a run of bytes: those read as zero, every other byte as before. -/
theorem read_zeroFill (m : Memory) (start n i : Nat) :
    ((List.range n).foldl (fun m k => m.write (start + k) 0) m).read i =
      if start ≤ i ∧ i < start + n then 0 else m.read i := by
  induction n with
  | zero =>
    have h : ¬ (start ≤ i ∧ i < start + 0) := by omega
    simp only [List.range_zero, List.foldl_nil, h, if_false]
  | succ n ih =>
    rw [List.range_succ, List.foldl_append, List.foldl_cons, List.foldl_nil, Memory.read_write, ih]
    split
    · rw [if_pos (by omega)]
    · split
      · rw [if_pos (by omega)]
      · rw [if_neg (by omega)]

end Machine
end Sys2Proof
end

