-- ==== Sys2Proof/Laws/Step.lean ====
section
/-! SUPPORT. What a command and a step can do, said once: each meaning's cases, what they have in common, and the cases of a step. -/

namespace Sys2Proof
namespace Machine

theorem execNew_cases (dsize : BitVec 10) (s : State) :
    (selectorOf dsize.toNat = none ∧ execNew dsize s = .next (s.raise .unsupportedDigestSize)) ∨
    (∃ d, selectorOf dsize.toNat = some d ∧
      execNew dsize s = .next (s.succeed { s.engine.clear with dsel := d, phase := .created } [])) := by
  unfold execNew
  cases selectorOf dsize.toNat <;> simp

theorem execUpdate_cases (offset length : BitVec 14) (payload : List Word) (s : State) :
    (s.engine.phase.acceptsData = false ∧ execUpdate offset length payload s = .next (s.raise .invalidState)) ∨
    (s.engine.phase.acceptsData = true ∧ rangeOk offset length payload = false ∧
      execUpdate offset length payload s = .next (s.raise .argumentRange)) ∨
    (s.engine.phase.acceptsData = true ∧ rangeOk offset length payload = true ∧
      (length.toNat = 0 ∨ s.engine.cursorOk = true) ∧
      execUpdate offset length payload s =
        .next (s.succeed { s.engine.absorbBytes (selectedBytes offset length payload) with phase := .updating } [])) ∨
    (s.engine.phase.acceptsData = true ∧ rangeOk offset length payload = true ∧ length.toNat ≠ 0 ∧
      s.engine.cursorOk = false ∧ execUpdate offset length payload s = .fault .cursorOutsideBlock) := by
  unfold execUpdate
  split
  · split
    · split
      · rename_i h1 h2 h3
        exact .inr (.inr (.inl ⟨h1, h2, h3, rfl⟩))
      · rename_i h1 h2 h3
        simp only [not_or, Bool.not_eq_true] at h3
        exact .inr (.inr (.inr ⟨h1, h2, h3.1, h3.2, rfl⟩))
    · rename_i h1 h2
      exact .inr (.inl ⟨h1, by simpa using h2, rfl⟩)
  · rename_i h1
    exact .inl ⟨by simpa using h1, rfl⟩

theorem execFinalize_cases (s : State) :
    (s.engine.phase.acceptsData = false ∧ execFinalize s = .next (s.raise .invalidState)) ∨
    (s.engine.phase.acceptsData = true ∧ s.engine.cursorOk = true ∧
      execFinalize s = .next (s.succeed { s.engine.absorbFinal padByte with phase := .finalized }
        (digestWords (s.engine.absorbFinal padByte).squeeze))) ∨
    (s.engine.phase.acceptsData = true ∧ s.engine.cursorOk = false ∧ execFinalize s = .fault .cursorOutsideBlock) := by
  unfold execFinalize
  split
  · split
    · rename_i h1 h2
      exact .inr (.inl ⟨h1, h2, rfl⟩)
    · rename_i h1 h2
      exact .inr (.inr ⟨h1, by simpa using h2, rfl⟩)
  · rename_i h1
    exact .inl ⟨by simpa using h1, rfl⟩

theorem execReset_cases (s : State) :
    (s.engine.phase = .unconfigured ∧ execReset s = .next (s.raise .invalidState)) ∨
    (s.engine.phase ≠ .unconfigured ∧
      execReset s = .next (s.succeed { s.engine.clear with phase := .created } [])) := by
  unfold execReset
  split
  · exact .inl ⟨‹_›, rfl⟩
  · exact .inr ⟨‹_›, rfl⟩

/-- How any command ends: it raises an error, it succeeds with a new engine, it answers STATUS, or it finds the cursor outside the
block. -/
theorem exec_cases (i : Instr) (s : State) :
    (∃ error, error ≠ .ok ∧ exec i s = .next (s.raise error)) ∨
    (∃ e data, i ≠ .status ∧ exec i s = .next (s.succeed e data)) ∨
    (i = .status ∧ exec i s = .next (s.respond .ok [statusWord s.engine])) ∨
    (s.engine.cursorOk = false ∧ exec i s = .fault .cursorOutsideBlock) := by
  cases i with
  | new dsize =>
    rcases execNew_cases dsize s with ⟨_, h⟩ | ⟨d, _, h⟩
    · exact .inl ⟨_, by decide, h⟩
    · exact .inr (.inl ⟨_, _, by simp, h⟩)
  | update offset length payload =>
    rcases execUpdate_cases offset length payload s with ⟨_, h⟩ | ⟨_, _, h⟩ | ⟨_, _, _, h⟩ | ⟨_, _, _, hc, h⟩
    · exact .inl ⟨_, by decide, h⟩
    · exact .inl ⟨_, by decide, h⟩
    · exact .inr (.inl ⟨_, _, by simp, h⟩)
    · exact .inr (.inr (.inr ⟨hc, h⟩))
  | finalize =>
    rcases execFinalize_cases s with ⟨_, h⟩ | ⟨_, _, h⟩ | ⟨_, hc, h⟩
    · exact .inl ⟨_, by decide, h⟩
    · exact .inr (.inl ⟨_, _, by simp, h⟩)
    · exact .inr (.inr (.inr ⟨hc, h⟩))
  | reset =>
    rcases execReset_cases s with ⟨_, h⟩ | ⟨_, h⟩
    · exact .inl ⟨_, by decide, h⟩
    · exact .inr (.inl ⟨_, _, by simp, h⟩)
  | status => exact .inr (.inr (.inl ⟨rfl, rfl⟩))

/-- The cases of a step. -/
theorem step_cases (s : State) :
    (s.channel = [] ∧ step s = .next s) ∨
    (∃ running forced rest, s.channel = .overlap running forced :: rest ∧
      step s = .refused .overlappingTransactions) ∨
    (∃ t rest i, s.channel = .transaction t :: rest ∧ decode t = .ok i ∧ step s = exec i { s with channel := rest }) ∨
    (∃ t rest r, s.channel = .transaction t :: rest ∧ decode t = .error r ∧
      step s = .next (({ s with channel := rest } : State).raise .illegalCommand)) := by
  obtain ⟨e, channel, responses⟩ := s
  cases channel with
  | nil => exact .inl ⟨rfl, rfl⟩
  | cons event rest =>
    cases event with
    | overlap running forced => exact .inr (.inl ⟨running, forced, rest, rfl, rfl⟩)
    | transaction t =>
      cases h : decode t with
      | ok i => exact .inr (.inr (.inl ⟨t, rest, i, rfl, h, by simp [step, fetch, h]⟩))
      | error r => exact .inr (.inr (.inr ⟨t, rest, r, rfl, h, by simp [step, fetch, h, execIllegal]⟩))

end Machine
end Sys2Proof
end

