-- ==== Sys2Proof/Tests/Slice0.lean ====
section
/-! SUPPORT. Tests whose expected results are the spec's own (95_test_vectors.md, 96_programs.md and the examples of the rules), the
smoke test of WellFormed, and for every statement with hypotheses a named witness that meets them. -/

namespace Sys2Proof
namespace Tests

open Sys2Proof.Machine

/-- The outcome is a next state with the property. -/
def nextHas (o : Host.Outcome State Fault Refusal) (p : State → Bool) : Bool :=
  match o with
  | .next t => p t
  | .fault _ => false
  | .refused _ => false

/-- The machine in a phase, for a digest size, with `cur` pending bytes of value 0x61, every lane zero. -/
def at_ (phase : Phase) (d : DigestSel) (cur : Nat) : State :=
  { State.reset with
    engine := { Engine.reset with
      phase := phase, dsel := d, cur := BitVec.ofNat 8 cur,
      buf := { cells := (List.range cur).map fun k => (k, 0x61), lost := none } } }

/-- The machine with these events on its channel. -/
def presenting (s : State) (events : List ChannelEvent) : State := { s with channel := events }

/-- The lane array with these lanes, and zero elsewhere. -/
def lanesOf (listed : List (Nat × Lane)) : Lanes :=
  Vector.ofFn fun i : Fin 25 => (listed.lookup i.val).getD 0

/-! ### WellFormed -/

theorem test_wellFormed_refuses_1025_words : WellFormed (.update 0 0 (List.replicate 1025 0)) = false := by decide +kernel
theorem test_wellFormed_accepts_1024_words : WellFormed (.update 0 4096 (List.replicate 1024 0)) = true := by decide +kernel

/-! ### Decoding: one word of every constructor, bit by bit from R83 to R85 (V20), and the rejections of V21 -/

theorem test_decode_new_256 : decode ⟨0b00010000000000000000000100000000, []⟩ = .ok (.new 256) := rfl
theorem test_decode_update_1_2 :
    decode ⟨0b00100000000000001000000000000001, [0x64636261]⟩ = .ok (.update 1 2 [0x64636261]) := rfl
theorem test_decode_finalize : decode ⟨0b00110000000000000000000000000000, []⟩ = .ok .finalize := rfl
theorem test_decode_reset : decode ⟨0b01000000000000000000000000000000, []⟩ = .ok .reset := rfl
theorem test_decode_status : decode ⟨0b01010000000000000000000000000000, []⟩ = .ok .status := rfl
theorem test_decode_zero_word : decode ⟨0x00000000, []⟩ = .error .reservedOpcode := rfl
theorem test_decode_ones_word : decode ⟨0xFFFFFFFF, []⟩ = .error .reservedOpcode := rfl
theorem test_decode_new_bit27 : decode ⟨0x18000100, []⟩ = .error .reservedBits := rfl
theorem test_decode_new_bit10 : decode ⟨0x10000400, []⟩ = .error .reservedBits := rfl
theorem test_decode_new_payload : decode ⟨0x10000100, [0]⟩ = .error .strayPayload := rfl
theorem test_decode_reset_bit27 : decode ⟨0x48000000, []⟩ = .error .reservedBits := rfl
theorem test_decode_update_1025_words :
    (decode ⟨0x24000000, List.replicate 1025 0⟩).toOption = none := by decide +kernel
theorem test_decode_table_rows :
    [0x10000000, 0x20000000, 0x30000000, 0x40000000, 0x50000000].map (decodeTableWord 32) =
      [some (.new 0), some (.update 0 0 []), some .finalize, some .reset, some .status] := by decide
/-- V20: UPDATE 0, 5, "hello". -/
theorem test_assemble_hello :
    assemble (.update 0 5 (.ascii ['h', 'e', 'l', 'l', 'o'])) = some [⟨0x20014000, [0x6C6C6568, 0x0000006F]⟩] := by decide

/-! ### Tables against the recurrences of R122 -/

/-- `ROT` from its recurrence: `(lane, offset)` for each `t`. -/
def rotWalk : Nat → Nat → Nat → Nat → List (Nat × Nat)
  | 0, _, _, _ => []
  | n + 1, t, x, y => (x + 5 * y, ((t + 1) * (t + 2) / 2) % 64) :: rotWalk n (t + 1) y ((2 * x + 3 * y) % 5)

/-- The linear feedback shift register of R122 after `t` turns. -/
def lfsr : Nat → Nat
  | 0 => 1
  | t + 1 => let r := lfsr t <<< 1; if r &&& 0x100 ≠ 0 then r ^^^ 0x171 else r

/-- `RC[ir]` from its recurrence. -/
def rcOf (ir : Nat) : Nat :=
  ((List.range 7).map fun j => (lfsr ((j + 7 * ir) % 255) &&& 1) <<< (2 ^ j - 1)).sum

theorem test_rot_recurrence :
    (rotWalk 24 0 1 0).all (fun c => rotTable.toList.getD c.1 99 == c.2) = true ∧ rotTable[0] = 0 := by decide +kernel
theorem test_rc_recurrence :
    (List.range 24).map (fun ir => BitVec.ofNat 64 (rcOf ir)) = rcTable.toList := by decide +kernel

/-! ### The permutation (V1, V2, V4, V5, V6, V7) -/

theorem test_rol_wraps : rol 0x8000000000000001 1 = 0x0000000000000003 ∧ rol 0x0123456789ABCDEF 36 = 0x9ABCDEF012345678 := by
  decide
theorem test_rol_multiple_of_64 : rol 0x0123456789ABCDEF 0 = 0x0123456789ABCDEF ∧ rol 0x0123456789ABCDEF 68 = 0x123456789ABCDEF0 := by
  decide
theorem test_theta_lane7 :
    theta (lanesOf [(7, 0x8000000000000000)]) =
      lanesOf [(1, 1), (3, 0x8000000000000000), (6, 1), (7, 0x8000000000000000), (8, 0x8000000000000000), (11, 1),
        (13, 0x8000000000000000), (16, 1), (18, 0x8000000000000000), (21, 1), (23, 0x8000000000000000)] := by
  decide +kernel
theorem test_rho_ones :
    let r := rho (Vector.replicate 25 1)
    r[1] = 0x0000000000000002 ∧ r[2] = 0x4000000000000000 ∧ r[5] = 0x0000001000000000 ∧ r[24] = 0x0000000000004000 := by
  decide +kernel
theorem test_pi_indices :
    (pi (Vector.ofFn fun i : Fin 25 => BitVec.ofNat 64 i.val)).toList.map BitVec.toNat =
      [0, 6, 12, 18, 24, 3, 9, 10, 16, 22, 1, 7, 13, 19, 20, 4, 5, 11, 17, 23, 2, 8, 14, 15, 21] := by
  decide +kernel
theorem test_chi_indices :
    (chi (Vector.ofFn fun i : Fin 25 => BitVec.ofNat 64 (i.val + 1))).toList.map BitVec.toNat =
      [0x0, 0x6, 0x2, 0x4, 0x7, 0xE, 0x6, 0xA, 0xD, 0xB, 0xA, 0xE, 0xC, 0xE, 0xB, 0x12, 0x10, 0x16, 0x13, 0x15,
        0x14, 0x1E, 0x16, 0x1C, 0x1B] := by
  decide +kernel
theorem test_round_one :
    let r := round (round zeroLanes 0) 1
    r[0] = 0x0000000000008083 ∧ r[4] = 0x0000100000008000 ∧ r[13] = 0x0000000000000202 ∧ r[24] = 0x0000000000000004 := by
  decide +kernel

/-! ### The sponge (V15, V18, V22) -/

theorem test_pad_one_byte_left :
    ((at_ .updating .d256 135).engine.pad 0x01).buf.read 135 = 0x81 ∧
      ((at_ .updating .d256 135).engine.pad 0x01).buf.read 134 = 0x61 := by decide +kernel
theorem test_pad_abc_words :
    let b := ((at_ .updating .d512 3).engine.pad 0x01).buf
    memRead b.read 0 8 = 0x0000000001616161 ∧ memRead b.read 64 8 = 0x8000000000000000 := by decide +kernel
/-- R7, R8: the parameters agree with the types and tables they name. -/
theorem test_parameters :
    Config.laneWidth * Config.laneCount = Config.stateWidth ∧ zeroLanes.toList.length = Config.laneCount ∧
      rcTable.toList.length = Config.roundCount ∧ Config.kse1.cmdWidth = 32 ∧ padByte = 0x01 := by decide
theorem test_rate_256 : rateSelect .d256 = ⟨1088, 136, 32⟩ := rfl
theorem test_status_word : statusWord { (at_ .updating .d256 100).engine with lastErr := .ok } = 0x00000646 := by decide +kernel
theorem test_buffer_forgets_zero :
    (Memory.zero.write 3 0x61).write 3 0 = Memory.zero ∧ (Memory.zero.write 3 0x61).wf := by decide

/-! ### The commands (R170 to R175, V25, V23, P2) -/

theorem test_new_256 :
    nextHas (exec (.new 256) (at_ .updating .d512 3))
      (fun t => t.engine == { Engine.reset with phase := .created, dsel := .d256 } && t.responses == [[0]]) = true := by decide
theorem test_new_300 :
    nextHas (exec (.new 300) (at_ .updating .d512 3))
      (fun t => t.engine.cur == 3 && t.engine.lastErr == .unsupportedDigestSize && t.responses == [[1]]) = true := by decide
theorem test_update_offset_5 :
    nextHas (exec (.update 5 6 [0x03020100, 0x07060504, 0x0B0A0908]) (at_ .created .d256 0))
      (fun t => t.engine.cur == 6 && t.engine.phase == .updating &&
        (List.range 6).map t.engine.buf.read == [5, 6, 7, 8, 9, 10] && t.responses == [[0]]) = true := by decide
theorem test_update_range :
    nextHas (exec (.update 5 8 [0x03020100, 0x07060504, 0x0B0A0908]) (at_ .created .d256 0))
      (fun t => t.engine.cur == 0 && t.engine.phase == .created && t.responses == [[3]]) = true := by decide
/-- P2, step 4: the 512-bit digest of "abc". -/
theorem test_finalize_abc :
    nextHas (exec .finalize { State.reset with engine := { Engine.reset with
        phase := .updating, dsel := .d512, cur := 3, buf := { cells := [(0, 0x61), (1, 0x62), (2, 0x63)], lost := none } } })
      (fun t => t.engine.phase == .finalized && t.responses ==
        [[0x00000000, 0xC27D5818, 0x9A6B10EA, 0x2BE36315, 0x1C421233, 0xF1C764A1, 0x22C97BF0, 0x773DC8A9, 0xE5A1A3CE,
          0x1099C6D0, 0x37259073, 0xC94AC12D, 0x37292664, 0x7EC14095, 0x9DB1652A, 0x1A51AA77, 0x96BB009D]]) = true := by
  decide +kernel
theorem test_finalize_twice :
    nextHas (exec .finalize (at_ .finalized .d512 0)) (fun t => t.engine.lastErr == .invalidState && t.responses == [[2]]) = true := by
  decide
theorem test_reset_keeps_dsel :
    nextHas (exec .reset (at_ .finalized .d384 0))
      (fun t => t.engine == { Engine.reset with phase := .created, dsel := .d384 } && t.responses == [[0]]) = true := by decide
theorem test_reset_unconfigured : nextHas (exec .reset State.reset) (fun t => t.responses == [[2]]) = true := by decide
theorem test_status_after_update :
    nextHas (exec .status (at_ .updating .d512 3)) (fun t => t.responses == [[0, 0x0000003E]]) = true := by decide
theorem test_illegal_keeps_state :
    nextHas (step (presenting (at_ .finalized .d256 0) [.transaction ⟨0x30000001, []⟩]))
      (fun t => t.engine == { (at_ .finalized .d256 0).engine with lastErr := .illegalCommand } && t.responses == [[4]]) = true := by
  decide
/-- The first step after reset on each row's word answers the transaction. -/
theorem test_first_step_of_each_row :
    [0x10000000, 0x20000000, 0x30000000, 0x40000000, 0x50000000].map (fun w =>
      nextHas (step (State.reset.withFetchWord 32 w)) fun t => t.channel == [] &&
        t.responses == [if w = 0x10000000 then [1] else if w = 0x50000000 then [0, 0] else [2]]) =
      [true, true, true, true, true] := by decide

/-! ### Witnesses: states and operands that meet the hypotheses of the statements in Certificates/Slice0/Obligations.lean -/

theorem witness_ResetValuesOfEveryField : (at_ .finalized .d384 0).engine.phase ≠ .unconfigured := by decide
theorem witness_HardwareResetAgainstResetCommand : (at_ .updating .d384 5).engine.phase ≠ .unconfigured := by decide
theorem witness_NewConstructsOrRejects_sizes :
    [224, 256, 384, 512].map (fun n => (BitVec.ofNat 10 n).toNat) = [224, 256, 384, 512] := by decide
theorem witness_NewConstructsOrRejects_others :
    ∀ d ∈ [(0 : BitVec 10), 225, 1023], d.toNat ≠ 224 ∧ d.toNat ≠ 256 ∧ d.toNat ≠ 384 ∧ d.toNat ≠ 512 := by decide
/-- Clause 1 at the last cursor of the block and at the exact end of the payload. -/
theorem witness_UpdateAbsorbsOrRejects_absorbs :
    ((at_ .updating .d256 135).engine.phase = .created ∨ (at_ .updating .d256 135).engine.phase = .updating) ∧
      (3 : BitVec 14).toNat + (1 : BitVec 14).toNat ≤ 4 * [(0 : Word)].length ∧
      (at_ .updating .d256 135).engine.cur.toNat < blockSize (at_ .updating .d256 135).engine.dsel := by decide +kernel
theorem witness_UpdateAbsorbsOrRejects_phase :
    State.reset.engine.phase = .unconfigured ∧ (at_ .finalized .d224 0).engine.phase = .finalized := by decide
theorem witness_UpdateAbsorbsOrRejects_range :
    (at_ .created .d256 0).engine.phase = .created ∧ 4 * [(0 : Word)].length < (4 : BitVec 14).toNat + (1 : BitVec 14).toNat := by
  decide
theorem witness_EmptyUpdateOnlyMovesPhase :
    ((at_ .created .d256 0).engine.phase = .created ∧ (4 : BitVec 14).toNat ≤ 4 * [(0 : Word)].length) ∧
    ∃ t, exec (.update 0 1 [0]) (at_ .created .d512 0) = .next t ∧ t.engine.lastErr = .ok :=
  ⟨by decide, _, rfl, rfl⟩
theorem witness_FinalizeDigestsOrRejects :
    ((at_ .created .d512 0).engine.phase = .created ∧
      (at_ .created .d512 0).engine.cur.toNat < blockSize (at_ .created .d512 0).engine.dsel) ∧
    ((at_ .updating .d224 143).engine.phase = .updating ∧
      (at_ .updating .d224 143).engine.cur.toNat < blockSize (at_ .updating .d224 143).engine.dsel) ∧
    State.reset.engine.phase = .unconfigured ∧ (at_ .finalized .d512 0).engine.phase = .finalized := by decide +kernel
theorem witness_ResetClearsOrRejects :
    (at_ .updating .d224 7).engine.phase = .updating ∧ State.reset.engine.phase = .unconfigured := by decide
/-- One transaction for each of the five classes of R90, at the boundary values of the class. -/
theorem witness_IllegalTransactionsAreExactlyThese :
    ((0x00000000 : Word) >>> 28).toNat = 0 ∧ 6 ≤ ((0x60000000 : Word) >>> 28).toNat ∧
    (((0x10000400 : Word) >>> 28).toNat = 1 ∧ (0x10000400 : Word).extractLsb' 10 18 ≠ 0) ∧
    (((0x50000000 : Word) >>> 28).toNat = 5 ∧ [(0 : Word)] ≠ []) ∧
    (((0x30000001 : Word) >>> 28).toNat = 3 ∧ (0x30000001 : Word).extractLsb' 0 28 ≠ 0) ∧
    (((0x20000000 : Word) >>> 28).toNat = 2 ∧ 1024 < (List.replicate 1025 (0 : Word)).length) ∧
    (presenting State.reset [.transaction ⟨0x60000000, []⟩]).channel = .transaction ⟨0x60000000, []⟩ :: [] := by decide +kernel
theorem witness_StepRunsDecodedCommand :
    (presenting State.reset [.transaction ⟨0x50000000, []⟩]).channel = .transaction ⟨0x50000000, []⟩ :: [] ∧
      decode ⟨0x50000000, []⟩ = .ok .status := ⟨rfl, rfl⟩
theorem witness_IdleStepAndOverlap :
    State.reset.channel = [] ∧
      (presenting State.reset [.overlap ⟨0x50000000, []⟩ ⟨0x30000000, []⟩]).channel =
        .overlap ⟨0x50000000, []⟩ ⟨0x30000000, []⟩ :: [] := ⟨rfl, rfl⟩
theorem witness_OneResponsePerTransaction :
    (∃ t, step State.reset = .next t) ∧ ∃ t, step (presenting State.reset [.transaction ⟨0x50000000, []⟩]) = .next t :=
  ⟨⟨_, rfl⟩, ⟨_, rfl⟩⟩
theorem witness_ErrorsLeaveStateUnchanged :
    ∃ t code data, step (presenting State.reset [.transaction ⟨0x30000000, []⟩]) = .next t ∧
      t.responses = State.reset.responses ++ [code :: data] ∧ code ≠ 0 := ⟨_, 2, [], rfl, rfl, by decide⟩
theorem witness_LastErrRecordsOutcome :
    (∃ t code data, step (presenting State.reset [.transaction ⟨0x50000000, []⟩]) = .next t ∧
      t.responses = State.reset.responses ++ [code :: data] ∧ decode ⟨0x50000000, []⟩ = .ok .status) ∧
    ∃ t code data, step (presenting State.reset [.transaction ⟨0x60000000, []⟩]) = .next t ∧
      t.responses = State.reset.responses ++ [code :: data] ∧ decode ⟨0x60000000, []⟩ ≠ .ok .status :=
  ⟨⟨_, 0, [0], rfl, rfl, rfl⟩, ⟨_, 4, [], rfl, rfl, by decide⟩⟩
theorem witness_LifecycleTable :
    (at_ .updating .d512 71).engine.cur.toNat < blockSize (at_ .updating .d512 71).engine.dsel ∧
      (presenting State.reset [.transaction ⟨0xF0000000, []⟩]).channel = .transaction ⟨0xF0000000, []⟩ :: [] ∧
      decode ⟨0xF0000000, []⟩ = .error .reservedOpcode := ⟨by decide +kernel, rfl, rfl⟩
/-- V23: the same bad range in `Finalized` and in `Created`, a malformed transaction, a bad size. -/
theorem witness_ErrorPriority :
    (presenting (at_ .finalized .d256 0) [.transaction ⟨0x30000001, []⟩]).channel = .transaction ⟨0x30000001, []⟩ :: [] ∧
      decode ⟨0x30000001, []⟩ = .error .reservedBits ∧
      4 * [(0x64636261 : Word)].length < (2 : BitVec 14).toNat + (3 : BitVec 14).toNat ∧
      (300 : BitVec 10).toNat ∉ [224, 256, 384, 512] := ⟨rfl, rfl, by decide, by decide⟩
theorem witness_DigestSizeChangesOnlyByNew :
    ∃ t, exec (.new 512) (at_ .updating .d256 5) = .next t ∧ t.engine.dsel ≠ (at_ .updating .d256 5).engine.dsel :=
  ⟨_, rfl, by decide⟩
theorem witness_NothingButNewConfigures :
    State.reset.engine.phase = .unconfigured ∧ ∀ dsize, Instr.new dsize ∉ [Instr.reset, .update 0 0 [], .finalize, .status] :=
  ⟨rfl, by simp⟩
theorem witness_DecodeOfEncode : WellFormed (.update 16383 16383 [1, 2]) = true := by decide
theorem witness_OnlyEncodingsDecode : decode ⟨0x2FFFFFFF, []⟩ = .ok (.update 16383 16383 []) := rfl
theorem witness_PackedBytesAreThePayload : 7 < 4 * (packBytes [1, 2, 3, 4, 5]).length := by decide
theorem witness_StateByteView_and_FlatStateView : 7 < 8 ∧ 199 < 200 ∧ 199 / 8 = 24 := by decide
theorem witness_WideReadAfterWrite : (0 < 3 ∨ 3 + 8 ≤ 0) ∧ (11 < 3 ∨ 3 + 8 ≤ 11) := by decide
theorem witness_StepsBitByBit : 63 < 64 := by decide
theorem witness_XorBlockLanesAndBytes : 71 < blockSize .d512 ∧ ¬ 72 < blockSize .d512 ∧ 199 < 200 := by decide
theorem witness_RotationBits : 64 % 64 = 0 ∧ 63 % 64 ≠ 0 ∧ 63 < 64 := by decide
/-- The sequence of lane arrays whose every element is one round of the one before. -/
def rounds : Nat → Lanes
  | 0 => zeroLanes
  | n + 1 => round (rounds n) (Fin.ofNat 24 n)
theorem witness_PermutationIsTwentyFourRounds :
    ∀ ir : Fin 24, rounds (ir.val + 1) = iota (chi (pi (rho (theta (rounds ir.val))))) ir := by
  intro ir
  show round (rounds ir.val) (Fin.ofNat 24 ir.val) = _
  rw [show Fin.ofNat 24 ir.val = ir from Fin.ext (Nat.mod_eq_of_lt ir.isLt)]
  rfl
theorem witness_PadCompletesTheBlock :
    (at_ .updating .d384 103).engine.cur.toNat < blockSize (at_ .updating .d384 103).engine.dsel := by decide +kernel
theorem witness_AbsorbCursorAndBlockCount :
    (at_ .updating .d224 143).engine.cur.toNat < blockSize (at_ .updating .d224 143).engine.dsel := by decide +kernel
/-- A failing UPDATE, one that fills no block, and one that fills the block exactly. -/
theorem witness_UpdateFrame :
    (∃ t, exec (.update 4 1 [0]) (at_ .updating .d512 71) = .next t ∧ t.engine.lastErr ≠ .ok) ∧
    (∃ t, exec (.update 0 1 [0]) (at_ .updating .d512 70) = .next t ∧ t.engine.lastErr = .ok ∧
      (at_ .updating .d512 70).engine.cur.toNat + (1 : BitVec 14).toNat < blockSize .d512) ∧
    (∃ t, exec (.update 0 1 [0]) (at_ .updating .d512 71) = .next t ∧ t.engine.lastErr = .ok ∧
      blockSize .d512 ≤ (at_ .updating .d512 71).engine.cur.toNat + (1 : BitVec 14).toNat) ∧
    (at_ .updating .d512 71).engine.cur.toNat < blockSize (at_ .updating .d512 71).engine.dsel :=
  ⟨⟨_, rfl, by decide⟩, ⟨_, rfl, rfl, by decide +kernel⟩, ⟨_, rfl, rfl, by decide +kernel⟩, by decide +kernel⟩
theorem witness_OtherCommandsFrame :
    (∃ t, exec (.new 224) (at_ .updating .d256 5) = .next t) ∧ (∃ t, exec .reset (at_ .updating .d256 5) = .next t) ∧
    (∃ t, exec .finalize (at_ .finalized .d256 0) = .next t ∧ t.engine.lastErr ≠ .ok) ∧
    (∃ t, exec .status (at_ .updating .d256 5) = .next t) :=
  ⟨⟨_, rfl⟩, ⟨_, rfl⟩, ⟨_, rfl, by decide⟩, ⟨_, rfl⟩⟩
/-- "ab" then "c" against "abc". -/
theorem witness_StreamingEquivalence :
    (UpdateArgs.mk 0 3 [0x00636261]).data = (UpdateArgs.mk 0 2 [0x00006261]).data ++ (UpdateArgs.mk 0 1 [0x00000063]).data ∧
    ∃ s1 s2 s', exec (UpdateArgs.mk 0 2 [0x00006261]).instr (at_ .created .d256 0) = .next s1 ∧
      exec (UpdateArgs.mk 0 1 [0x00000063]).instr s1 = .next s2 ∧
      exec (UpdateArgs.mk 0 3 [0x00636261]).instr (at_ .created .d256 0) = .next s' ∧
      s1.engine.lastErr = .ok ∧ s2.engine.lastErr = .ok ∧ s'.engine.lastErr = .ok :=
  ⟨by decide, _, _, _, rfl, rfl, rfl, rfl, rfl, rfl⟩
theorem witness_DigestIsTheReferenceHash : ∀ u ∈ [UpdateArgs.mk 0 3 [0x00636261], UpdateArgs.mk 4 0 [0]], u.inRange := by
  simp [UpdateArgs.inRange]
theorem witness_AnySplitGivesTheSameDigest :
    let us := [UpdateArgs.mk 0 3 [0x00636261]]
    let vs := [UpdateArgs.mk 0 2 [0x00006261], UpdateArgs.mk 0 0 [], UpdateArgs.mk 0 1 [0x00000063]]
    (∀ u ∈ us, u.inRange) ∧ (∀ v ∈ vs, v.inRange) ∧ us.flatMap UpdateArgs.data = vs.flatMap UpdateArgs.data :=
  ⟨by simp [UpdateArgs.inRange], by simp [UpdateArgs.inRange], by decide⟩
theorem witness_ResetActsAsNewOfTheSameSize : (at_ .updating .d384 9).engine.phase ≠ .unconfigured := by decide
theorem witness_FixedOutputLength :
    (at_ .created .d224 0).engine.cur.toNat < blockSize (at_ .created .d224 0).engine.dsel := by decide
/-- A state that meets the invariant with a byte pending. -/
theorem pendingByte_inv : (at_ .updating .d256 1).Inv where
  bufWf := by decide
  cursorInBlock := by decide
  cursorZero h := absurd rfl h
  createdLanes h := by cases h
  unconfigured h := by cases h
  pendingSpecified j _ := rfl
theorem witness_StepKeepsInvariant :
    (presenting (at_ .updating .d256 1) [.transaction ⟨0x20004000, [0x61]⟩]).Inv ∧
      ∃ t, step (presenting (at_ .updating .d256 1) [.transaction ⟨0x20004000, [0x61]⟩]) = .next t :=
  ⟨pendingByte_inv, _, rfl⟩
theorem witness_EngineNeverStops :
    (presenting (at_ .updating .d256 1) [.transaction ⟨0x30000000, []⟩]).Inv ∧
      (presenting (at_ .updating .d256 1) [.transaction ⟨0x30000000, []⟩]).serial := by
  refine ⟨pendingByte_inv, ?_⟩
  intro running forced rest h
  cases h
/-- Two states that differ in what their buffer holds above the cursor: zeros in one, unspecified bytes in the other. -/
theorem witness_UnspecifiedBytesAreInvisible :
    (at_ .created .d256 0).engine.SameVisible { (at_ .created .d256 0).engine with buf := .lose 4, draws := 5 } ∧
      ∃ t, step (presenting (at_ .created .d256 0) [.transaction ⟨0x20004000, [0x61]⟩]) = .next t :=
  ⟨⟨rfl, rfl, rfl, rfl, rfl, fun j h => absurd h (by simp [at_])⟩, _, rfl⟩
theorem witness_EnginesOfAChipAreIndependent :
    let chip : Chip := [State.reset, presenting State.reset [.transaction ⟨0x10000100, []⟩]]
    chip[1]? = some (presenting State.reset [.transaction ⟨0x10000100, []⟩]) ∧ ∃ chip', chip.step 1 = .next chip' :=
  ⟨rfl, _, rfl⟩
/-- The one fault, in a state no run reaches: the cursor at the block size. -/
theorem test_cursor_outside_block_faults :
    exec .finalize { State.reset with engine := { Engine.reset with phase := .updating, dsel := .d512, cur := 72 } } =
      .fault .cursorOutsideBlock := rfl

end Tests
end Sys2Proof
end

section
/-! PROOFS. The rotation `ROL` (R11): its two branches, its agreement with the library's `BitVec.rotateLeft`, and where each bit goes. -/

namespace Sys2Proof
namespace Machine

theorem rol_of_mod_eq_zero (x : Lane) {n : Nat} (h : n % 64 = 0) : rol x n = x := if_pos h

theorem rol_of_mod_ne_zero (x : Lane) {n : Nat} (h : n % 64 ≠ 0) :
    rol x n = (x <<< (n % 64)) ||| (x >>> (64 - n % 64)) := if_neg h

/-- The branch for the zero rotation is no exception: there a shift by the width would give the zero lane. -/
theorem rol_eq_rotateLeft (x : Lane) (n : Nat) : rol x n = x.rotateLeft n := by
  by_cases h : n % 64 = 0
  · have shiftedOut : x >>> 64 = 0#64 := BitVec.ushiftRight_eq_zero (Nat.le_refl 64)
    simp [rol_of_mod_eq_zero x h, BitVec.rotateLeft_def, h, shiftedOut]
  · rw [rol_of_mod_ne_zero x h, BitVec.rotateLeft_def]

/-- Bit `i` moves up by `n mod 64`, and comes back from bit 0 when that passes bit 63. -/
theorem getLsbD_rol_add_mod (x : Lane) (n : Nat) {i : Nat} (hi : i < 64) :
    (rol x n).getLsbD ((i + n) % 64) = x.getLsbD i := by
  rw [rol_eq_rotateLeft, BitVec.getLsbD_rotateLeft]
  by_cases wraps : 64 ≤ i + n % 64
  · have target : (i + n) % 64 = i + n % 64 - 64 := by omega
    have below : i + n % 64 - 64 < n % 64 := by omega
    have source : 64 - n % 64 + (i + n % 64 - 64) = i := by omega
    simp [target, below, source]
  · have target : (i + n) % 64 = i + n % 64 := by omega
    have inside : i + n % 64 < 64 := by omega
    simp [target, inside]

/-- Settles O29: the two branches of `rol`, and each bit's place from the library's rotation. -/
theorem rotationBits : Obligations.RotationBits := fun x n =>
  ⟨rol_of_mod_eq_zero x, rol_of_mod_ne_zero x, fun _ hi => getLsbD_rol_add_mod x n hi⟩

end Machine
end Sys2Proof
end

section
/-! PROOFS. The flat view of the lanes (R22): a sum of digits of `w` bits read bit by bit, and each bit of the vector `ST` and of a
state byte as a bit of a lane. -/

namespace Sys2Proof
namespace Machine

/-- The number whose digits of `w` bits are `d 0`, ..., `d (n - 1)`, lowest first: the sum that `flatState` forms of the lanes. -/
def digitSum (w : Nat) (d : Nat → Nat) (n : Nat) : Nat :=
  ((List.range n).map fun i => d i * 2 ^ (w * i)).sum

theorem flatState_eq_digitSum (a : Lanes) :
    flatState a = BitVec.ofNat 1600 (digitSum 64 (fun i => (a[i]?.getD 0).toNat) 25) := rfl

theorem digitSum_succ (w : Nat) (d : Nat → Nat) (n : Nat) :
    digitSum w d (n + 1) = 2 ^ (w * n) * d n + digitSum w d n := by
  simp [digitSum, List.range_succ, Nat.add_comm, Nat.mul_comm]

theorem digitSum_lt {w : Nat} {d : Nat → Nat} (digit_lt : ∀ i, d i < 2 ^ w) (n : Nat) :
    digitSum w d n < 2 ^ (w * n) := by
  induction n with
  | zero => simp [digitSum]
  | succ n ih =>
    calc digitSum w d (n + 1)
      _ = 2 ^ (w * n) * d n + digitSum w d n := digitSum_succ w d n
      _ < 2 ^ (w * n) * (d n + 1) := by rw [Nat.mul_succ]; exact Nat.add_lt_add_left ih _
      _ ≤ 2 ^ (w * n) * 2 ^ w := Nat.mul_le_mul_left _ (digit_lt n)
      _ = 2 ^ (w * (n + 1)) := by rw [← Nat.pow_add, Nat.mul_succ]

/-- No digit carries into the next, so bit `k` of the number is a bit of the digit it falls in. -/
theorem testBit_digitSum {w : Nat} {d : Nat → Nat} (digit_lt : ∀ i, d i < 2 ^ w) {n k : Nat} (hk : k < w * n) :
    (digitSum w d n).testBit k = (d (k / w)).testBit (k % w) := by
  induction n with
  | zero => simp at hk
  | succ n ih =>
    rw [digitSum_succ, Nat.testBit_two_pow_mul_add _ (digitSum_lt digit_lt n)]
    split
    · next below => exact ih below
    · next top =>
      have digit : k / w = n := Nat.div_eq_of_lt_le (by rw [Nat.mul_comm]; omega) (by rwa [Nat.mul_comm])
      have bit : k % w = k - w * n := by rw [Nat.mod_eq_sub, digit]
      rw [digit, bit]

theorem getLsbD_flatState (a : Lanes) {k : Nat} (hk : k < 1600) :
    (flatState a).getLsbD k = (a[k / 64]?.getD 0).getLsbD (k % 64) := by
  rw [flatState_eq_digitSum, BitVec.getLsbD_ofNat, testBit_digitSum (fun i => BitVec.isLt _) hk]
  simp [hk, BitVec.testBit_toNat]

theorem getLsbD_byteAt (v k : Nat) {b : Nat} (hb : b < 8) : (byteAt v k).getLsbD b = v.testBit (8 * k + b) := by
  simp only [byteAt, BitVec.getLsbD_ofNat, Nat.testBit_shiftRight, hb, decide_true, Bool.true_and]

theorem getLsbD_stateByte (a : Lanes) (j : Nat) {b : Nat} (hb : b < 8) :
    (stateByte a j).getLsbD b = (a[j / 8]?.getD 0).getLsbD (8 * (j % 8) + b) := by
  rw [stateByte, getLsbD_byteAt _ _ hb, BitVec.testBit_toNat]

theorem extractLsb'_flatState_lane (a : Lanes) (i : Fin 25) : (flatState a).extractLsb' (64 * i.val) 64 = a[i] := by
  refine BitVec.eq_of_getLsbD_eq fun b hb => ?_
  have inside : 64 * i.val + b < 1600 := by omega
  have lane : (64 * i.val + b) / 64 = i.val := by omega
  have bit : (64 * i.val + b) % 64 = b := by omega
  simp [getLsbD_flatState a inside, lane, bit, hb]

theorem extractLsb'_flatState_byte (a : Lanes) {j : Nat} (hj : j < 200) :
    (flatState a).extractLsb' (8 * j) 8 = stateByte a j := by
  refine BitVec.eq_of_getLsbD_eq fun b hb => ?_
  have inside : 8 * j + b < 1600 := by omega
  have lane : (8 * j + b) / 64 = j / 8 := by omega
  have bit : (8 * j + b) % 64 = 8 * (j % 8) + b := by omega
  rw [getLsbD_stateByte a j hb, ← bit, ← lane, ← getLsbD_flatState a inside]
  simp [hb]

/-- Settles O25: bit by bit, from where a lane's bits and a byte's bits stand in the flat vector. -/
theorem flatStateView : Obligations.FlatStateView := fun a =>
  ⟨extractLsb'_flatState_lane a, fun _ hj => extractLsb'_flatState_byte a hj⟩

end Machine
end Sys2Proof
end

section
/-! PROOFS. The state byte view (R52) and the little-endian `MemRead` (R12): reading the bytes of a number gives the number, cut to
the bytes read. -/

namespace Sys2Proof
namespace Machine

theorem toNat_byteAt (v k : Nat) : (byteAt v k).toNat = v / 256 ^ k % 256 := by
  rw [byteAt, BitVec.toNat_ofNat, Nat.shiftRight_eq_div_pow, Nat.pow_mul]

theorem byteAt_toNat (x : Lane) (k : Nat) : byteAt x.toNat k = (x >>> (8 * k)).setWidth 8 := by
  simp [byteAt, ← BitVec.toNat_inj]

theorem memRead_succ (space : Nat → Byte) (a n : Nat) :
    memRead space a (n + 1) = memRead space a n + (space (a + n)).toNat * 256 ^ n := by
  simp [memRead, List.range_succ]

/-- Where `space` holds the bytes of `v` from `a` on, a read at `a` gives back `v`, cut to the bytes read. -/
theorem memRead_eq_mod_of_bytes {space : Nat → Byte} {a v n : Nat} (bytes : ∀ k < n, space (a + k) = byteAt v k) :
    memRead space a n = v % 256 ^ n := by
  induction n with
  | zero => simp [memRead, Nat.mod_one]
  | succ n ih =>
    have low : memRead space a n = v % 256 ^ n := ih fun k hk => bytes k (Nat.lt_succ_of_lt hk)
    have top : (space (a + n)).toNat = v / 256 ^ n % 256 := by rw [bytes n n.lt_succ_self, toNat_byteAt]
    rw [memRead_succ, low, top, Nat.mod_pow_succ, Nat.mul_comm (256 ^ n)]

theorem stateByte_eq_byteAt_lane (a : Lanes) (i : Fin 25) {k : Nat} (hk : k < 8) :
    stateByte a (8 * i.val + k) = byteAt a[i].toNat k := by
  have lane : (8 * i.val + k) / 8 = i.val := by omega
  have byte : (8 * i.val + k) % 8 = k := by omega
  simp [stateByte, lane, byte]

theorem memRead_stateByte (a : Lanes) (i : Fin 25) : memRead (stateByte a) (8 * i.val) 8 = a[i].toNat := by
  rw [memRead_eq_mod_of_bytes (v := a[i].toNat) fun _ hk => stateByte_eq_byteAt_lane a i hk]
  exact Nat.mod_eq_of_lt a[i].isLt

/-- Settles O24: a byte of the view is a byte of its lane, and the little-endian read of a lane's eight bytes is the lane's number. -/
theorem stateByteView : Obligations.StateByteView := by
  intro a i
  refine ⟨fun k hk => ?byte, ?lane, ?bound⟩
  case byte => rw [stateByte_eq_byteAt_lane a i hk, byteAt_toNat]
  case lane => rw [memRead_stateByte, BitVec.ofNat_toNat, BitVec.setWidth_eq]
  case bound => rw [memRead_stateByte]; exact a[i].isLt

end Machine
end Sys2Proof
end

section
/-! PROOFS. Which transactions are ILLEGAL (R90). Each test of the decoder (R89) is one on `OPC`, the word's reserved bits and its payload;
the transactions that pass one are exactly those of formats N, U and Z, and every other has one outcome in every phase (R194). -/

namespace Sys2Proof
namespace Machine

theorem toNat_word_shiftRight (w : Word) (n : Nat) : (w >>> n).toNat = w.toNat / 2 ^ n := by
  rw [BitVec.toNat_ushiftRight, Nat.shiftRight_eq_div_pow]

theorem extractLsb'_word_eq_zero_iff (w : Word) (start len : Nat) :
    w.extractLsb' start len = 0 ↔ w.toNat / 2 ^ start % 2 ^ len = 0 := by
  simp [← BitVec.toNat_inj, Nat.shiftRight_eq_div_pow]

theorem toNat_and_highMask (w : Word) (n : Nat) :
    (w &&& BitVec.allOnes 32 <<< n).toNat = w.toNat / 2 ^ n * 2 ^ n := by
  rw [← BitVec.shiftLeft_ushiftRight, BitVec.toNat_shiftLeft, toNat_word_shiftRight, Nat.shiftLeft_eq]
  exact Nat.mod_eq_of_lt ((Nat.div_mul_le_self _ _).trans_lt w.isLt)

/-- NEW's test in R89: `OPC` is 1 and the reserved bits 27:10 are zero. -/
theorem newMask_iff (w : Word) :
    w &&& 0xFFFFFC00 = 0x10000000 ↔ (w >>> 28).toNat = 1 ∧ w.extractLsb' 10 18 = 0 := by
  have masked : (w &&& (0xFFFFFC00 : Word)).toNat = w.toNat / 2 ^ 10 * 2 ^ 10 := toNat_and_highMask w 10
  have value : (0x10000000 : Word).toNat = 2 ^ 28 := rfl
  rw [← BitVec.toNat_inj, masked, value, toNat_word_shiftRight, extractLsb'_word_eq_zero_iff]
  omega

/-- UPDATE's test in R89: `OPC` is 2; every other bit of the word is an operand's. -/
theorem updateMask_iff (w : Word) : w &&& 0xF0000000 = 0x20000000 ↔ (w >>> 28).toNat = 2 := by
  have masked : (w &&& (0xF0000000 : Word)).toNat = w.toNat / 2 ^ 28 * 2 ^ 28 := toNat_and_highMask w 28
  have value : (0x20000000 : Word).toNat = 2 * 2 ^ 28 := rfl
  rw [← BitVec.toNat_inj, masked, value, toNat_word_shiftRight]
  omega

/-- The test of a format Z command in R89: `OPC` is its code `k` and the reserved bits 27:0 are zero. -/
theorem eq_formatZ_iff (w : Word) {k : Nat} (hk : k < 16) :
    w = BitVec.ofNat 32 (k * 2 ^ 28) ↔ (w >>> 28).toNat = k ∧ w.extractLsb' 0 28 = 0 := by
  rw [← BitVec.toNat_inj, BitVec.toNat_ofNat, toNat_word_shiftRight, extractLsb'_word_eq_zero_iff]
  omega

/-- R89: a transaction decodes to a command where one of the decoder's five tests passes. -/
theorem decode_ok_iff_test (t : Transaction) :
    (∃ i, decode t = .ok i) ↔
      (t.command &&& 0xFFFFFC00 = 0x10000000 ∧ t.payload.length = 0) ∨
      (t.command &&& 0xF0000000 = 0x20000000 ∧ t.payload.length ≤ Config.kse1.payloadWordsMax) ∨
      (t.command = 0x30000000 ∧ t.payload.length = 0) ∨ (t.command = 0x40000000 ∧ t.payload.length = 0) ∨
      (t.command = 0x50000000 ∧ t.payload.length = 0) := by
  unfold decode
  split_ifs with new update finalize reset status
  · exact iff_of_true ⟨_, rfl⟩ (.inl new)
  · exact iff_of_true ⟨_, rfl⟩ (.inr (.inl update))
  · exact iff_of_true ⟨_, rfl⟩ (.inr (.inr (.inl finalize)))
  · exact iff_of_true ⟨_, rfl⟩ (.inr (.inr (.inr (.inl reset))))
  · exact iff_of_true ⟨_, rfl⟩ (.inr (.inr (.inr (.inr status))))
  · exact iff_of_false (by simp) (by simp only [new, update, finalize, reset, status, or_self, not_false_eq_true])

/-- The transactions that decode to a command are those of formats N, U and Z (R83, R84, R85), with their reserved bits zero and no more
payload than the format carries. -/
theorem decode_ok_iff (t : Transaction) {opc : Nat} (hopc : (t.command >>> 28).toNat = opc) :
    (∃ i, decode t = .ok i) ↔
      (opc = 1 ∧ t.command.extractLsb' 10 18 = 0 ∧ t.payload = []) ∨
      (opc = 2 ∧ t.payload.length ≤ 1024) ∨
      ((3 ≤ opc ∧ opc ≤ 5) ∧ t.command.extractLsb' 0 28 = 0 ∧ t.payload = []) := by
  have finalize : t.command = 0x30000000 ↔ _ := eq_formatZ_iff t.command (k := 3) (by decide)
  have reset : t.command = 0x40000000 ↔ _ := eq_formatZ_iff t.command (k := 4) (by decide)
  have status : t.command = 0x50000000 ↔ _ := eq_formatZ_iff t.command (k := 5) (by decide)
  have limit : Config.kse1.payloadWordsMax = 1024 := rfl
  have opcodesZ : (3 ≤ opc ∧ opc ≤ 5) ↔ opc = 3 ∨ opc = 4 ∨ opc = 5 := by omega
  simp only [decode_ok_iff_test, newMask_iff, updateMask_iff, finalize, reset, status, limit, hopc,
    List.length_eq_zero_iff, opcodesZ, or_and_right, and_assoc]

/-- The classes of R90: what `decode_ok_iff` leaves out, opcode by opcode. -/
theorem decode_error_iff (t : Transaction) {opc : Nat} (hopc : (t.command >>> 28).toNat = opc) :
    (∃ r, decode t = .error r) ↔
      opc = 0 ∨ 6 ≤ opc ∨
      (opc = 1 ∧ (t.command.extractLsb' 10 18 ≠ 0 ∨ t.payload ≠ [])) ∨
      (3 ≤ opc ∧ opc ≤ 5 ∧ (t.command.extractLsb' 0 28 ≠ 0 ∨ t.payload ≠ [])) ∨
      (opc = 2 ∧ 1024 < t.payload.length) := by
  have error_iff_not_ok : (∃ r, decode t = .error r) ↔ ¬ ∃ i, decode t = .ok i := by cases decode t <;> simp
  rw [error_iff_not_ok, decode_ok_iff t hopc]
  have opcodes : opc = 0 ∨ opc = 1 ∨ opc = 2 ∨ (3 ≤ opc ∧ opc ≤ 5) ∨ 6 ≤ opc := by omega
  rcases opcodes with rfl | rfl | rfl | ⟨low, high⟩ | reserved
  · simp
  · simp [imp_iff_not_or]
  · simp
  · interval_cases opc <;> simp [imp_iff_not_or]
  · exact iff_of_true (by omega) (.inr (.inl reserved))

/-- R194: a transaction that decodes to no command has one outcome, whatever the phase. -/
theorem step_of_decode_error {s : State} {t : Transaction} {rest : List ChannelEvent} {r : IllegalReason}
    (presented : s.channel = .transaction t :: rest) (illegal : decode t = .error r) :
    step s = .next (({ s with channel := rest } : State).raise .illegalCommand) := by
  rcases step_cases s with ⟨idle, -⟩ | ⟨_, _, _, overlap, -⟩ | ⟨_, _, _, other, decoded, -⟩ | ⟨_, _, _, same, -, raised⟩
  · simp [presented] at idle
  · simp [presented] at overlap
  · simp only [presented, List.cons.injEq, ChannelEvent.transaction.injEq] at other
    simp [← other.1, illegal] at decoded
  · simp only [presented, List.cons.injEq] at same
    rw [raised, same.2]

/-- Settles O9: the classes of R90 are where the decoder's five tests all fail, and there the step raises `IllegalCommand`. -/
theorem illegalTransactionsAreExactlyThese : Obligations.IllegalTransactionsAreExactlyThese := by
  intro s t rest presented opc illegal
  refine ⟨decode_error_iff t rfl, fun isIllegal => ?_⟩
  obtain ⟨_, rejected⟩ := (decode_error_iff t rfl).mpr isIllegal
  exact step_of_decode_error presented rejected

end Machine
end Sys2Proof
end

section
/-! PROOFS. The five steps and KECCAK_F (R114 to R119, R124): each step lane by lane, PI by its two tables (R116), and KECCAK_F as 24
rounds in order. -/

namespace Sys2Proof
namespace Machine

/-- The lane index of coordinates `(x,y)` (R21, R110). -/
def laneIndex (x y : Nat) : Fin 25 := ⟨x % 5 + 5 * (y % 5), by omega⟩

theorem laneAt_eq (a : Lanes) (x y : Nat) : laneAt a x y = a[laneIndex x y] := rfl

theorem laneIndex_mod_div (i : Fin 25) : laneIndex (i.val % 5) (i.val / 5) = i := by
  apply Fin.ext
  simp only [laneIndex]
  omega

theorem lanes_ext {a b : Lanes} (same : ∀ i : Fin 25, a[i] = b[i]) : a = b :=
  Vector.ext fun i hi => same ⟨i, hi⟩

theorem lanes_ext_coordinates {a b : Lanes} (same : ∀ x y, laneAt a x y = laneAt b x y) : a = b :=
  lanes_ext fun i => by simpa only [laneAt_eq, laneIndex_mod_div] using same (i.val % 5) (i.val / 5)

theorem rho_lane (a : Lanes) (i : Fin 25) : (rho a)[i] = rol a[i] rotTable[i] := by simp [rho]

theorem pi_lane (a : Lanes) (j : Fin 25) : (pi a)[j] = a[piSrc[j]] := by simp [pi]

theorem laneAt_theta (a : Lanes) (x y : Nat) :
    laneAt (theta a) x y = laneAt a x y ^^^ entryAt (thetaMask (columnParity a)) x := by
  simp [laneAt, theta, entryAt]

theorem laneAt_chi (a : Lanes) (x y : Nat) :
    laneAt (chi a) x y = laneAt a x y ^^^ (~~~(laneAt a (x + 1) y) &&& laneAt a (x + 2) y) := by
  have row : (x % 5 + 5 * (y % 5)) / 5 = y % 5 := by omega
  have column (k : Nat) : (x % 5 + 5 * (y % 5) + k) % 5 = (x + k) % 5 := by omega
  simp [laneAt, chi, row, column]

/-! PI -/

theorem piSrc_piDst (i : Fin 25) : piSrc[piDst[i]] = i := by decide +revert

theorem pi_lane_piDst (a : Lanes) (i : Fin 25) : (pi a)[piDst[i]] = a[i] := by
  simp only [pi_lane, piSrc_piDst]

theorem piDst_laneIndex (x y : Fin 5) : piDst[laneIndex x.val y.val] = laneIndex y.val (2 * x.val + 3 * y.val) := by
  decide +revert

/-- Settles O30: `PIDST` is the map on coordinates, and `PISRC` undoes it. -/
theorem piMovesLanes : Obligations.PiMovesLanes := by
  refine ⟨fun a x y => ?_, pi_lane_piDst, piSrc_piDst⟩
  simp only [laneAt_eq, ← piDst_laneIndex, pi_lane_piDst]

/-! KECCAK_F -/

/-- A sequence built by `f` step by step ends in the fold of `f` over the indices in order. -/
theorem foldl_eq_of_forall_succ {α : Type} {n : Nat} {f : α → Fin n → α} {b : Nat → α}
    (built : ∀ i : Fin n, b (i.val + 1) = f (b i.val) i) : Fin.foldl n f (b 0) = b n := by
  induction n with
  | zero => exact Fin.foldl_zero f (b 0)
  | succ n ih =>
    have before : Fin.foldl n (fun a i => f a i.castSucc) (b 0) = b n := ih fun i => built i.castSucc
    rw [Fin.foldl_succ_last, before]
    exact (built (Fin.last n)).symm

/-- Settles O33: the hypothesis says that `b` is built by `round`, index after index. -/
theorem permutationIsTwentyFourRounds : Obligations.PermutationIsTwentyFourRounds := by
  intro b built
  have rounds : Fin.foldl 24 round (b 0) = b 24 := foldl_eq_of_forall_succ built
  rw [keccakF_eq, ← Fin.foldl_eq_foldl_finRange, rounds]

end Machine
end Sys2Proof
end

section
/-! PROOFS. The permutation is a bijection (R123). RHO, PI, CHI and IOTA are undone lane by lane, row by row or by themselves. THETA
changes each lane by a mask of the column parities, and the map it makes of the five parities is undone by iterating it: squaring such a
map only doubles its offsets and its rotation, since the cross terms cancel. -/

namespace Sys2Proof
namespace Machine

theorem finite_lanes : Finite Lanes := by
  have lane : Finite Lane := Finite.of_injective BitVec.toFin fun _ _ => BitVec.eq_of_toFin_eq
  exact Finite.of_injective (fun (a : Lanes) (i : Fin 25) => a[i]) fun _ _ same => lanes_ext (congrFun same)

theorem bijective_of_injective {f : Lanes → Lanes} (injective : Function.Injective f) : Function.Bijective f :=
  have := finite_lanes
  Finite.injective_iff_bijective.mp injective

/-! The rotation -/

/-- Every bit position is one that a rotation by `n` moves some bit to. -/
theorem lane_ext_rotated {x y : Lane} (n : Nat) (same : ∀ i < 64, x.getLsbD ((i + n) % 64) = y.getLsbD ((i + n) % 64)) :
    x = y := by
  refine BitVec.eq_of_getLsbD_eq fun k hk => ?_
  have source : ((k + (64 - n % 64)) % 64 + n) % 64 = k := by omega
  simpa only [source] using same ((k + (64 - n % 64)) % 64) (Nat.mod_lt _ (by decide))

theorem rol_injective (n : Nat) : Function.Injective fun x => rol x n := fun x y (same : rol x n = rol y n) =>
  BitVec.eq_of_getLsbD_eq fun i hi => by rw [← getLsbD_rol_add_mod x n hi, same, getLsbD_rol_add_mod y n hi]

theorem rol_xor (x y : Lane) (n : Nat) : rol (x ^^^ y) n = rol x n ^^^ rol y n :=
  lane_ext_rotated n fun i hi => by simp only [BitVec.getLsbD_xor, getLsbD_rol_add_mod _ n hi]

theorem rol_rol (x : Lane) (m n : Nat) : rol (rol x m) n = rol x (m + n) := by
  refine lane_ext_rotated (m + n) fun i hi => ?_
  have twice : (i + (m + n)) % 64 = ((i + m) % 64 + n) % 64 := by omega
  rw [getLsbD_rol_add_mod x (m + n) hi, twice, getLsbD_rol_add_mod _ n (Nat.mod_lt _ (by decide)),
    getLsbD_rol_add_mod x m hi]

/-! RHO, PI, CHI and IOTA -/

theorem rho_bijective : Function.Bijective rho := bijective_of_injective fun a b same =>
  lanes_ext fun i => rol_injective rotTable[i] (by simp only [← rho_lane, same])

theorem pi_bijective : Function.Bijective pi := bijective_of_injective fun a b same =>
  lanes_ext fun i => by rw [← pi_lane_piDst a i, same, pi_lane_piDst]

/-- The inverse of CHI on a row, for one bit position: the first bit of a row from the five bits CHI makes of it. -/
theorem bit_eq_of_chi_row (p q r s t : Bool) :
    let p' := p ^^ (!q && r)
    let q' := q ^^ (!r && s)
    let r' := r ^^ (!s && t)
    let s' := s ^^ (!t && p)
    let t' := t ^^ (!p && q)
    p = (p' ^^ (!q' && (r' ^^ (!s' && t')))) := by
  decide +revert

theorem laneAt_add_five (a : Lanes) (x y : Nat) : laneAt a (x + 5) y = laneAt a x y := by simp [laneAt]

theorem laneAt_eq_of_chi (a : Lanes) (x y : Nat) :
    laneAt a x y = laneAt (chi a) x y ^^^ (~~~laneAt (chi a) (x + 1) y &&&
      (laneAt (chi a) (x + 2) y ^^^ (~~~laneAt (chi a) (x + 3) y &&& laneAt (chi a) (x + 4) y))) := by
  have wrap : laneAt a (x + 6) y = laneAt a (x + 1) y := laneAt_add_five a (x + 1) y
  refine BitVec.eq_of_getLsbD_eq fun z hz => ?_
  simpa [laneAt_chi, laneAt_add_five, wrap, hz] using
    bit_eq_of_chi_row ((laneAt a x y).getLsbD z) ((laneAt a (x + 1) y).getLsbD z) ((laneAt a (x + 2) y).getLsbD z)
      ((laneAt a (x + 3) y).getLsbD z) ((laneAt a (x + 4) y).getLsbD z)

theorem chi_bijective : Function.Bijective chi := bijective_of_injective fun a b same =>
  lanes_ext_coordinates fun x y => by rw [laneAt_eq_of_chi a, same, ← laneAt_eq_of_chi b]

theorem iota_involutive (ir : Fin 24) : Function.Involutive fun a => iota a ir := fun a => by
  simp [iota]

/-! THETA -/

theorem parities_ext {c d : Vector Lane 5} (same : ∀ x, entryAt c x = entryAt d x) : c = d :=
  Vector.ext fun x hx => by simpa [entryAt, Nat.mod_eq_of_lt hx] using same x

/-- Five lanes, each with two others added to it, the second of them rotated: the shape of THETA's action on the column parities
(`columnParity_theta`). -/
def spread (p q n : Nat) (c : Vector Lane 5) : Vector Lane 5 :=
  Vector.ofFn fun x : Fin 5 => entryAt c x.val ^^^ entryAt c (x.val + p) ^^^ rol (entryAt c (x.val + q)) n

theorem entryAt_spread (p q n : Nat) (c : Vector Lane 5) (x : Nat) :
    entryAt (spread p q n c) x = entryAt c x ^^^ entryAt c (x + p) ^^^ rol (entryAt c (x + q)) n := by
  simp [entryAt, spread]

theorem entryAt_thetaMask (c : Vector Lane 5) (x : Nat) :
    entryAt (thetaMask c) x = entryAt c (x + 4) ^^^ rol (entryAt c (x + 1)) 1 := by
  simp [entryAt, thetaMask]

theorem entryAt_columnParity (a : Lanes) (x : Nat) :
    entryAt (columnParity a) x = laneAt a x 0 ^^^ laneAt a x 1 ^^^ laneAt a x 2 ^^^ laneAt a x 3 ^^^ laneAt a x 4 := by
  simp [entryAt, columnParity, laneAt]

/-- A column has five lanes, an odd number, so its parity changes by the mask once. -/
theorem columnParity_theta (a : Lanes) : columnParity (theta a) = spread 4 1 1 (columnParity a) := by
  refine parities_ext fun x => ?_
  have oddCopies (l0 l1 l2 l3 l4 m : Lane) :
      (l0 ^^^ m) ^^^ (l1 ^^^ m) ^^^ (l2 ^^^ m) ^^^ (l3 ^^^ m) ^^^ (l4 ^^^ m) = (l0 ^^^ l1 ^^^ l2 ^^^ l3 ^^^ l4) ^^^ m :=
    calc
      _ = (l0 ^^^ l1 ^^^ l2 ^^^ l3 ^^^ l4) ^^^ m ^^^ (m ^^^ m) ^^^ (m ^^^ m) := by ac_rfl
      _ = _ := by simp
  rw [entryAt_columnParity]
  simp only [laneAt_theta]
  rw [oddCopies, ← entryAt_columnParity, entryAt_thetaMask, entryAt_spread, BitVec.xor_assoc]

theorem spread_spread (p q n : Nat) (c : Vector Lane 5) :
    spread p q n (spread p q n c) = spread (p + p) (q + q) (n + n) c := by
  refine parities_ext fun x => ?_
  have crossTermsCancel (u v w f g h : Lane) : (u ^^^ v ^^^ f) ^^^ (v ^^^ w ^^^ g) ^^^ (f ^^^ g ^^^ h) = u ^^^ w ^^^ h :=
    calc
      _ = u ^^^ w ^^^ h ^^^ (v ^^^ v) ^^^ (f ^^^ f) ^^^ (g ^^^ g) := by ac_rfl
      _ = _ := by simp
  simp only [entryAt_spread, rol_xor, rol_rol, Nat.add_right_comm x q p, crossTermsCancel, Nat.add_assoc]

theorem iterate_spread_two_pow (p q n k : Nat) : (spread p q n)^[2 ^ k] = spread (2 ^ k * p) (2 ^ k * q) (2 ^ k * n) := by
  induction k with
  | zero => simp
  | succ k ih =>
    have doubled : 2 ^ (k + 1) = 2 ^ k + 2 ^ k := by rw [pow_succ, Nat.mul_two]
    rw [doubled, Function.iterate_add, ih]
    funext c
    simp only [Function.comp_apply, spread_spread, Nat.add_mul]

/-- Offsets count modulo 5 and the rotation modulo 64. -/
theorem spread_mod (p q n : Nat) : spread (p % 5) (q % 5) (n % 64) = spread p q n := by
  funext c
  refine parities_ext fun x => ?_
  have reduce (k : Nat) : entryAt c (x + k % 5) = entryAt c (x + k) := by simp [entryAt]
  simp only [entryAt_spread, reduce, rol_eq_rotateLeft, BitVec.rotateLeft_mod_eq_rotateLeft]

/-- Without the rotation: in polynomials in `X` over GF(2) with `X ^ 5 = 1`, `(1 + X ^ 2 + X ^ 3) * (1 + X + X ^ 4) = 1`. -/
theorem spread_two_three_spread_one_four (c : Vector Lane 5) : spread 2 3 0 (spread 1 4 0 c) = c := by
  refine parities_ext fun x => ?_
  have wrap (k : Nat) : entryAt c (k + 5) = entryAt c k := by simp [entryAt]
  have allButFirstCancel (c0 c1 c2 c3 c4 : Lane) :
      (c0 ^^^ c1 ^^^ c4) ^^^ (c2 ^^^ c3 ^^^ c1) ^^^ (c3 ^^^ c4 ^^^ c2) = c0 :=
    calc
      _ = c0 ^^^ (c1 ^^^ c1) ^^^ (c2 ^^^ c2) ^^^ (c3 ^^^ c3) ^^^ (c4 ^^^ c4) := by ac_rfl
      _ = _ := by simp
  simp only [entryAt_spread, rol_of_mod_eq_zero _ (Nat.zero_mod 64), Nat.add_assoc, Nat.reduceAdd]
  rw [show x + 6 = x + 1 + 5 from rfl, show x + 7 = x + 2 + 5 from rfl, wrap, wrap, allButFirstCancel]

/-- After 64 iterations THETA's rotation is a whole turn. -/
theorem iterate_spread_theta : (spread 4 1 1)^[2 ^ 7 + 2 ^ 6] = id := by
  have turnedOnce : (spread 4 1 1)^[2 ^ 6] = spread 1 4 0 := by
    rw [iterate_spread_two_pow, ← spread_mod]
    rfl
  have turnedTwice : (spread 4 1 1)^[2 ^ 7] = spread 2 3 0 := by
    rw [iterate_spread_two_pow, ← spread_mod]
    rfl
  rw [Function.iterate_add, turnedOnce, turnedTwice]
  exact funext spread_two_three_spread_one_four

theorem spread_theta_injective : Function.Injective (spread 4 1 1) := by
  have undone : (spread 4 1 1)^[191] ∘ spread 4 1 1 = id := iterate_spread_theta
  exact Function.Injective.of_comp (undone ▸ Function.injective_id)

theorem theta_bijective : Function.Bijective theta := bijective_of_injective fun a b same => by
  have parities : columnParity a = columnParity b :=
    spread_theta_injective (by rw [← columnParity_theta, same, columnParity_theta])
  refine lanes_ext_coordinates fun x y => ?_
  have lane : laneAt (theta a) x y = laneAt (theta b) x y := by rw [same]
  rwa [laneAt_theta, laneAt_theta, parities, BitVec.xor_left_inj] at lane

/-! KECCAK_F -/

theorem round_bijective (ir : Fin 24) : Function.Bijective fun a => round a ir :=
  (iota_involutive ir).bijective.comp <|
    chi_bijective.comp <| pi_bijective.comp <| rho_bijective.comp theta_bijective

theorem foldl_bijective {α β : Type} {f : α → β → α} (each : ∀ i, Function.Bijective fun a => f a i) (l : List β) :
    Function.Bijective fun a => l.foldl f a := by
  induction l with
  | nil => exact Function.bijective_id
  | cons i l ih => exact ih.comp (each i)

theorem keccakF_bijective : Function.Bijective keccakF :=
  funext keccakF_eq ▸ foldl_bijective round_bijective (List.finRange 24)

/-- Settles O35: the five steps one by one, and KECCAK_F as a composition of rounds of them. -/
theorem permutationIsBijection : Obligations.PermutationIsBijection :=
  ⟨theta_bijective, rho_bijective, pi_bijective, chi_bijective, fun ir => (iota_involutive ir).bijective, keccakF_bijective⟩

end Machine
end Sys2Proof
end

section
/-! PROOFS. XOR_BLOCK (R143): the little-endian number of a run of bytes has those bytes, and the XOR of two lanes is the XOR of their
bytes. -/

namespace Sys2Proof
namespace Machine

theorem memRead_eq_digitSum (space : Nat → Byte) (a n : Nat) :
    memRead space a n = digitSum 8 (fun k => (space (a + k)).toNat) n := by
  simp only [memRead, digitSum, Nat.pow_mul, Nat.reducePow]

theorem byteAt_memRead (space : Nat → Byte) (a : Nat) {n k : Nat} (hk : k < n) :
    byteAt (memRead space a n) k = space (a + k) := by
  refine BitVec.eq_of_getLsbD_eq fun z hz => ?_
  have digit : (8 * k + z) / 8 = k := by omega
  have bit : (8 * k + z) % 8 = z := by omega
  rw [getLsbD_byteAt _ _ hz, memRead_eq_digitSum, testBit_digitSum (fun _ => BitVec.isLt _) (by omega), digit, bit,
    BitVec.testBit_toNat]

theorem toNat_append_byte {n : Nat} (x : BitVec n) (b : Byte) : (x ++ b).toNat = x.toNat * 256 + b.toNat := by
  rw [BitVec.toNat_append, ← Nat.shiftLeft_add_eq_or_of_lt b.isLt, Nat.shiftLeft_eq]

/-- The little-endian read of eight bytes is the number of the word they form. -/
theorem memRead_eq_toNat_laneOfBytes (b : Nat → Byte) (i : Nat) : memRead b (8 * i) 8 = (laneOfBytes b i).toNat := by
  have empty : memRead b (8 * i) 0 = 0 := rfl
  simp only [laneOfBytes, toNat_append_byte, memRead_succ, empty, Nat.add_zero]
  omega

theorem byteAt_laneOfBytes (b : Nat → Byte) (i : Nat) {k : Nat} (hk : k < 8) :
    byteAt (laneOfBytes b i).toNat k = b (8 * i + k) := by
  rw [← memRead_eq_toNat_laneOfBytes, byteAt_memRead _ _ hk]

theorem byteAt_xor (x y : Lane) (k : Nat) : byteAt (x ^^^ y).toNat k = byteAt x.toNat k ^^^ byteAt y.toNat k := by
  simp only [byteAt_toNat, BitVec.ushiftRight_xor_distrib, BitVec.setWidth_xor]

theorem Engine.xorBlock_lane_laneOfBytes (e : Engine) (i : Fin 25) :
    e.xorBlock.lanes[i] =
      if i.val < blockSize e.dsel / 8 then e.lanes[i] ^^^ laneOfBytes e.buf.read i.val else e.lanes[i] := by
  rw [Engine.xorBlock_lane, memRead_eq_toNat_laneOfBytes, BitVec.ofNat_toNat, BitVec.setWidth_eq]

/-- A block is a whole number of lanes, so a byte lies inside the block exactly where its lane does. -/
theorem Engine.stateByte_xorBlock (e : Engine) {j : Nat} (hj : j < 200) :
    stateByte e.xorBlock.lanes j =
      if j < blockSize e.dsel then stateByte e.lanes j ^^^ e.buf.read j else stateByte e.lanes j := by
  obtain ⟨i, k, hk, rfl⟩ : ∃ (i : Fin 25) (k : Nat), k < 8 ∧ 8 * i.val + k = j :=
    ⟨⟨j / 8, by omega⟩, j % 8, Nat.mod_lt j (by decide), Nat.div_add_mod j 8⟩
  have inBlock : 8 * i.val + k < blockSize e.dsel ↔ i.val < blockSize e.dsel / 8 := by
    have := blockSize_eq e.dsel
    omega
  simp only [stateByte_eq_byteAt_lane _ i hk, Engine.xorBlock_lane_laneOfBytes, inBlock]
  split
  · rw [byteAt_xor, byteAt_laneOfBytes _ _ hk]
  · rfl

theorem Engine.xorBlock_eq_with_lanes (e : Engine) : e.xorBlock = { e with lanes := e.xorBlock.lanes } := by
  simp only [Engine.xorBlock]

/-- Settles O36: by lanes, by bytes, and the frame. -/
theorem xorBlockLanesAndBytes : Obligations.XorBlockLanesAndBytes := fun e =>
  ⟨e.xorBlock_lane_laneOfBytes, fun _ hj => e.stateByte_xorBlock hj, e.xorBlock_eq_with_lanes⟩

end Machine
end Sys2Proof
end

section
/-! PROOFS. PAD (R146): each byte of the buffer after it. -/

namespace Sys2Proof
namespace Machine

theorem Memory.read_write_or (m : Memory) (i j : Nat) (b : Byte) :
    (m.write i (m.read i ||| b)).read j = m.read j ||| (if j = i then b else 0) := by
  rw [Memory.read_write]
  split
  · next same => rw [same]
  · exact BitVec.or_zero.symm

/-- PAD's three writes, last first: 0x80 ORed into the last byte of the block, the zeros above the cursor, the marker at the cursor. The
OR reads what the other two left, so the marker stays where the cursor stands on the last byte. -/
theorem Engine.read_pad (e : Engine) (first : Byte) (j : Nat) (inBlock : e.cur.toNat < blockSize e.dsel) :
    (e.pad first).buf.read j = if j < blockSize e.dsel then finalBlockByte first e j else e.buf.read j := by
  have zeroed : e.cur.toNat + 1 ≤ j ∧ j < e.cur.toNat + 1 + (blockSize e.dsel - (e.cur.toNat + 1)) ↔
      e.cur.toNat < j ∧ j < blockSize e.dsel := by omega
  simp only [Engine.pad, finalBlockByte]
  rw [Memory.read_write_or, read_zeroFill, Memory.read_write]
  simp only [zeroed]
  by_cases inside : j < blockSize e.dsel
  · rcases Nat.lt_trichotomy j e.cur.toNat with pending | atCursor | above
    · simp [inside, pending, pending.ne, pending.not_gt]
    · simp [atCursor, inBlock]
    · simp [inside, above, above.ne', above.not_gt]
  · have outside : j ≠ e.cur.toNat ∧ j ≠ blockSize e.dsel - 1 := by omega
    simp [inside, outside]

/-- Settles O37. -/
theorem padCompletesTheBlock : Obligations.PadCompletesTheBlock := fun e first inBlock =>
  ⟨fun j hj => by rw [e.read_pad first j inBlock, if_pos hj],
    fun j hj => by rw [e.read_pad first j inBlock, if_neg (Nat.not_lt.mpr hj)], rfl⟩

end Machine
end Sys2Proof
end

section
/-! PROOFS. What the sponge can tell apart (R26): ABSORB_BYTES and the digest read nothing of an engine but its lanes, its cursor, its
digest size and its pending bytes. -/

namespace Sys2Proof
namespace Machine

/-- Two engines alike in what the sponge reads: `Engine.SameVisible` without the phase and `LASTERR`, which are the commands' own. -/
structure Engine.SameSponge (e f : Engine) : Prop where
  lanes : e.lanes = f.lanes
  cur : e.cur = f.cur
  dsel : e.dsel = f.dsel
  pending : ∀ j < e.cur.toNat, e.buf.read j = f.buf.read j

theorem Engine.sameVisible_iff (e f : Engine) :
    e.SameVisible f ↔ e.SameSponge f ∧ e.phase = f.phase ∧ e.lastErr = f.lastErr :=
  ⟨fun h => ⟨⟨h.lanes, h.cur, h.dsel, h.pending⟩, h.phase, h.lastErr⟩,
    fun ⟨h, phase, lastErr⟩ => ⟨h.lanes, h.cur, h.dsel, phase, lastErr, h.pending⟩⟩

theorem Engine.xorBlock_lanes_congr {e f : Engine} (lanes : e.lanes = f.lanes) (dsel : e.dsel = f.dsel)
    (block : ∀ j < blockSize e.dsel, e.buf.read j = f.buf.read j) : e.xorBlock.lanes = f.xorBlock.lanes := by
  refine lanes_ext fun i => ?_
  rw [Engine.xorBlock_lane_laneOfBytes, Engine.xorBlock_lane_laneOfBytes, ← lanes, ← dsel]
  split
  · next inBlock =>
    have word : laneOfBytes e.buf.read i.val = laneOfBytes f.buf.read i.val := by
      have whole := blockSize_eq e.dsel
      simp (disch := omega) only [laneOfBytes, block]
    rw [word]
  · rfl

/-- The byte at the cursor is the one stored; a cursor that wraps leaves no byte pending. -/
theorem Engine.SameSponge.putByte {e f : Engine} (same : e.SameSponge f) (b : Byte) : (e.putByte b).SameSponge (f.putByte b) where
  lanes := same.lanes
  cur := congrArg (· + 1) same.cur
  dsel := same.dsel
  pending j hj := by
    have below : j < e.cur.toNat + 1 := by
      rw [Engine.putByte_cur, BitVec.toNat_add] at hj
      exact hj.trans_le (Nat.mod_le _ _)
    simp only [Engine.putByte_buf, Memory.read_write, ← same.cur]
    split
    · rfl
    · exact same.pending j (by omega)

theorem Engine.SameSponge.absorbBlock {e f : Engine} (same : e.SameSponge f) (full : e.cur.toNat = blockSize e.dsel) :
    e.absorbBlock.SameSponge f.absorbBlock where
  lanes := by
    rw [Engine.absorbBlock_lanes, Engine.absorbBlock_lanes,
      Engine.xorBlock_lanes_congr same.lanes same.dsel fun j hj => same.pending j (full ▸ hj)]
  cur := by simp
  dsel := by simp [same.dsel]
  pending j hj := by simp at hj

theorem Engine.SameSponge.absorbByte {e f : Engine} (same : e.SameSponge f) (b : Byte) :
    (e.absorbByte b).SameSponge (f.absorbByte b) := by
  have put := same.putByte b
  unfold Engine.absorbByte
  rw [← put.cur, ← same.dsel]
  split
  · next full => exact put.absorbBlock full
  · exact put

theorem Engine.SameSponge.absorbBytes {e f : Engine} (same : e.SameSponge f) (data : List Byte) :
    (e.absorbBytes data).SameSponge (f.absorbBytes data) := by
  induction data generalizing e f with
  | nil => exact same
  | cons b rest ih => exact ih (same.absorbByte b)

/-- PAD stores to every byte of the block that is not pending. -/
theorem Engine.SameSponge.squeeze_absorbFinal {e f : Engine} (same : e.SameSponge f) (inBlock : e.cur.toNat < blockSize e.dsel)
    (first : Byte) : (e.absorbFinal first).squeeze = (f.absorbFinal first).squeeze := by
  have block (j : Nat) (hj : j < blockSize e.dsel) : (e.pad first).buf.read j = (f.pad first).buf.read j := by
    rw [e.read_pad first j inBlock, f.read_pad first j (same.cur ▸ same.dsel ▸ inBlock), ← same.dsel, if_pos hj, if_pos hj]
    simp only [finalBlockByte, ← same.cur, ← same.dsel]
    split
    · next pending => rw [same.pending j pending]
    · rfl
  have lanes : (e.pad first).xorBlock.lanes = (f.pad first).xorBlock.lanes :=
    Engine.xorBlock_lanes_congr (by simp [same.lanes]) (by simp [same.dsel]) (by simpa using block)
  simp [Engine.squeeze, lanes, same.dsel]

/-- R38 (a), byte by byte: the cursor leaves the block only by being set to 0. -/
theorem Engine.absorbByte_cur_lt_blockSize {e : Engine} (inBlock : e.cur.toNat < blockSize e.dsel) (b : Byte) :
    (e.absorbByte b).cur.toNat < blockSize (e.absorbByte b).dsel := by
  rw [Engine.absorbByte_dsel, e.absorbByte_eq b inBlock]
  split
  · simpa using blockSize_pos e.dsel
  · rw [e.putByte_cur_toNat b inBlock]
    omega

theorem Engine.absorbBytes_cur_lt_blockSize {e : Engine} (inBlock : e.cur.toNat < blockSize e.dsel) (data : List Byte) :
    (e.absorbBytes data).cur.toNat < blockSize (e.absorbBytes data).dsel := by
  induction data generalizing e with
  | nil => exact inBlock
  | cons b rest ih => exact ih (Engine.absorbByte_cur_lt_blockSize inBlock b)

end Machine
end Sys2Proof
end

section
/-! PROOFS. A whole hash (R152, R153): NEW, any UPDATEs in range and FINALIZE, from any state, answer with a digest that depends on the
digest size and the bytes absorbed alone. -/

namespace Sys2Proof
namespace Machine

theorem execAll_cons_of_next {i : Instr} {s t : State} (run : exec i s = .next t) (rest : List Instr) :
    execAll (i :: rest) s = execAll rest t := by
  simp only [execAll, run]

theorem execAll_append_of_next {first : List Instr} {s t : State} (run : execAll first s = .next t) (rest : List Instr) :
    execAll (first ++ rest) s = execAll rest t := by
  induction first generalizing s with
  | nil =>
    obtain rfl : s = t := by simpa [execAll] using run
    rfl
  | cons i first ih =>
    cases step : exec i s with
    | next u =>
      rw [execAll_cons_of_next step] at run
      rw [List.cons_append, execAll_cons_of_next step, ih run]
    | fault r => simp [execAll, step] at run
    | refused r => simp [execAll, step] at run

theorem selectorOf_digestBits (d : DigestSel) : selectorOf (BitVec.ofNat 10 (digestBits d)).toNat = some d := by
  cases d <;> rfl

theorem exec_new_digestBits (d : DigestSel) (s : State) :
    exec (.new (BitVec.ofNat 10 (digestBits d))) s =
      .next (s.succeed { s.engine.clear with dsel := d, phase := .created } []) := by
  simp only [exec, execNew, selectorOf_digestBits]

/-- The engine that NEW leaves, but for the model's count of draws. -/
def Engine.fresh (d : DigestSel) : Engine := { Engine.reset with dsel := d, phase := .created }

/-- The digest of `data` as the sponge's operations give it on a fresh engine. -/
def Engine.hash (d : DigestSel) (data : List Byte) : List Byte :=
  (((Engine.fresh d).absorbBytes data).absorbFinal padByte).squeeze

/-- What every state between NEW and FINALIZE satisfies: data is accepted, and the sponge has taken in `data` since NEW. -/
structure State.Absorbed (d : DigestSel) (data : List Byte) (s : State) : Prop where
  acceptsData : s.engine.phase.acceptsData = true
  sponge : s.engine.SameSponge ((Engine.fresh d).absorbBytes data)

theorem State.Absorbed.cursorOk {d : DigestSel} {data : List Byte} {s : State} (absorbed : s.Absorbed d data) :
    s.engine.cursorOk = true := by
  have fresh : (Engine.fresh d).cur.toNat < blockSize (Engine.fresh d).dsel := blockSize_pos d
  simpa [Engine.cursorOk, absorbed.sponge.cur, absorbed.sponge.dsel] using Engine.absorbBytes_cur_lt_blockSize fresh data

theorem State.absorbed_new (d : DigestSel) (s : State) :
    (s.succeed { s.engine.clear with dsel := d, phase := .created } []).Absorbed d [] where
  acceptsData := rfl
  sponge := ⟨rfl, rfl, rfl, fun _ _ => rfl⟩

theorem State.Absorbed.update {d : DigestSel} {data : List Byte} {s : State} (absorbed : s.Absorbed d data) {u : UpdateArgs}
    (inRange : u.inRange) :
    ∃ t, exec u.instr s = .next t ∧ t.Absorbed d (data ++ u.data) ∧ t.responses = s.responses ++ [[0]] := by
  have range : rangeOk u.offset u.length u.payload = true := decide_eq_true inRange
  refine ⟨s.succeed { s.engine.absorbBytes u.data with phase := .updating } [], ?_, ⟨rfl, ?_⟩, rfl⟩
  · simp [UpdateArgs.instr, exec, execUpdate, absorbed.acceptsData, range, absorbed.cursorOk, UpdateArgs.data]
  · rw [Engine.absorbBytes_append]
    have same := absorbed.sponge.absorbBytes u.data
    exact ⟨same.lanes, same.cur, same.dsel, same.pending⟩

theorem State.Absorbed.updates {d : DigestSel} {data : List Byte} {s : State} (absorbed : s.Absorbed d data)
    {us : List UpdateArgs} (inRange : ∀ u ∈ us, u.inRange) :
    ∃ t, execAll (us.map UpdateArgs.instr) s = .next t ∧ t.Absorbed d (data ++ us.flatMap UpdateArgs.data) ∧
      t.responses = s.responses ++ List.replicate us.length [0] := by
  induction us generalizing s data with
  | nil => exact ⟨s, rfl, by simpa using absorbed, by simp⟩
  | cons u us ih =>
    obtain ⟨hu, hus⟩ := List.forall_mem_cons.mp inRange
    obtain ⟨s', run, absorbed', answered⟩ := absorbed.update hu
    obtain ⟨t, runs, absorbedAll, answeredAll⟩ := ih absorbed' hus
    refine ⟨t, ?_, ?_, ?_⟩
    · rw [List.map_cons, execAll_cons_of_next run, runs]
    · simpa using absorbedAll
    · simp [answeredAll, answered, List.replicate_succ]

theorem State.Absorbed.finalize {d : DigestSel} {data : List Byte} {s : State} (absorbed : s.Absorbed d data) :
    ∃ t, exec .finalize s = .next t ∧ t.responses = s.responses ++ [0 :: digestWords (Engine.hash d data)] := by
  have digest : (s.engine.absorbFinal padByte).squeeze = Engine.hash d data :=
    absorbed.sponge.squeeze_absorbFinal (of_decide_eq_true absorbed.cursorOk) padByte
  refine ⟨s.succeed { s.engine.absorbFinal padByte with phase := .finalized } (digestWords (s.engine.absorbFinal padByte).squeeze),
    ?_, by rw [State.succeed_responses, digest]⟩
  simp [exec, execFinalize, absorbed.acceptsData, absorbed.cursorOk]

/-- The responses of a hash, whatever the state it starts from and wherever the message is cut. -/
theorem execAll_hash (s : State) (d : DigestSel) {us : List UpdateArgs} (inRange : ∀ u ∈ us, u.inRange) :
    ∃ t, execAll (Instr.new (BitVec.ofNat 10 (digestBits d)) :: us.map UpdateArgs.instr ++ [Instr.finalize]) s = .next t ∧
      t.responses = s.responses ++ List.replicate (us.length + 1) [0] ++
        [0 :: digestWords (Engine.hash d (us.flatMap UpdateArgs.data))] := by
  obtain ⟨s', runs, absorbed, answers⟩ := (State.absorbed_new d s).updates inRange
  obtain ⟨t, run, answer⟩ := absorbed.finalize
  refine ⟨t, ?_, ?_⟩
  · rw [List.cons_append, execAll_cons_of_next (exec_new_digestBits d s), execAll_append_of_next runs,
      execAll_cons_of_next run, execAll]
  · simp [answer, answers, List.replicate_succ]

/-- Settles O43: both runs answer with `Engine.hash` of the same bytes. -/
theorem anySplitGivesTheSameDigest : Obligations.AnySplitGivesTheSameDigest := by
  intro s1 s2 d us vs usInRange vsInRange sameBytes
  obtain ⟨t1, run1, answers1⟩ := execAll_hash s1 d usInRange
  obtain ⟨t2, run2, answers2⟩ := execAll_hash s2 d vsInRange
  refine ⟨t1, t2, digestWords (Engine.hash d (us.flatMap UpdateArgs.data)), run1, run2, ?_, ?_⟩
  · rw [answers1, List.getLast?_concat]
  · rw [answers2, List.getLast?_concat, sameBytes]

end Machine
end Sys2Proof
end

section
/-! PROOFS. The rates (R160, R161): the rows of the table, and the formulas that tie capacity, block size and output length to them. -/

namespace Sys2Proof
namespace Machine

theorem rateTable_row (d : DigestSel) :
    (digestBits d, d.code, rate d) ∈ [(224, 0, 1152), (256, 1, 1088), (384, 2, 832), (512, 3, 576)] := by
  cases d <;> decide

theorem capacity_eq_two_mul_digestBits (d : DigestSel) : capacity d = 2 * digestBits d := by cases d <;> rfl

theorem eight_mul_blockSize (d : DigestSel) : 8 * blockSize d = rate d := by cases d <;> rfl

theorem eight_mul_outLen (d : DigestSel) : 8 * outLen d = digestBits d := by cases d <;> rfl

/-- Settles O28. -/
theorem rateTableAndFormulas : Obligations.RateTableAndFormulas := fun d =>
  ⟨rateTable_row d, rfl, capacity_eq_two_mul_digestBits d, eight_mul_blockSize d, eight_mul_outLen d⟩

end Machine
end Sys2Proof
end

section
/-! PROOFS. Who writes `DSEL` (R28, R164): every command but NEW keeps it, and NEW writes the selector of its operand or nothing. -/

namespace Sys2Proof
namespace Machine

theorem eq_digestBits_of_selectorOf {n : Nat} {d : DigestSel} (selected : selectorOf n = some d) : n = digestBits d := by
  unfold selectorOf at selected
  split_ifs at selected <;> cases selected <;> assumption

theorem execUpdate_dsel {offset length : BitVec 14} {payload : List Word} {s t : State}
    (run : execUpdate offset length payload s = .next t) : t.engine.dsel = s.engine.dsel := by
  rcases execUpdate_cases offset length payload s with
    ⟨_, rejects⟩ | ⟨_, _, rejects⟩ | ⟨_, _, _, absorbs⟩ | ⟨_, _, _, _, faults⟩
  · cases rejects.symm.trans run
    rfl
  · cases rejects.symm.trans run
    rfl
  · cases absorbs.symm.trans run
    exact Engine.absorbBytes_dsel _ _
  · cases faults.symm.trans run

theorem execFinalize_dsel {s t : State} (run : execFinalize s = .next t) : t.engine.dsel = s.engine.dsel := by
  rcases execFinalize_cases s with ⟨_, rejects⟩ | ⟨_, _, digests⟩ | ⟨_, _, faults⟩
  · cases rejects.symm.trans run
    rfl
  · cases digests.symm.trans run
    exact Engine.absorbFinal_dsel _ _
  · cases faults.symm.trans run

theorem execReset_dsel {s t : State} (run : execReset s = .next t) : t.engine.dsel = s.engine.dsel := by
  rcases execReset_cases s with ⟨_, h⟩ | ⟨_, h⟩ <;> cases h.symm.trans run <;> rfl

theorem execStatus_dsel {s t : State} (run : execStatus s = .next t) : t.engine.dsel = s.engine.dsel := by
  cases run
  rfl

theorem execNew_dsel_cases {dsize : BitVec 10} {s t : State} (run : execNew dsize s = .next t) :
    t.engine.dsel = s.engine.dsel ∨
    (dsize.toNat = digestBits t.engine.dsel ∧ t.engine.phase = .created) := by
  rcases execNew_cases dsize s with ⟨_, rejects⟩ | ⟨d, selected, constructs⟩
  · cases rejects.symm.trans run
    exact .inl rfl
  · cases constructs.symm.trans run
    exact .inr ⟨eq_digestBits_of_selectorOf selected, rfl⟩

/-- Settles O17, command by command: four keep `DSEL`, and a NEW that changes it is one that constructs. -/
theorem digestSizeChangesOnlyByNew : Obligations.DigestSizeChangesOnlyByNew := by
  intro s t i run changed
  cases i with
  | new dsize =>
    obtain ⟨size, created⟩ := (execNew_dsel_cases run).resolve_left changed
    refine ⟨t.engine.dsel, ?_, rfl, created⟩
    rw [← size, BitVec.ofNat_toNat, BitVec.setWidth_eq]
  | update offset length payload => exact absurd (execUpdate_dsel run) changed
  | finalize => exact absurd (execFinalize_dsel run) changed
  | reset => exact absurd (execReset_dsel run) changed
  | status => exact absurd (execStatus_dsel run) changed

end Machine
end Sys2Proof
end

section
/-! PROOFS. The checks of the commands (R87, R88, R171, R173), each as the condition it tests, and the outcome of NEW, UPDATE, FINALIZE and
RESET under each result of their checks (R170 to R174, R196). -/

namespace Sys2Proof
namespace Machine

theorem Phase.acceptsData_iff (p : Phase) : p.acceptsData = true ↔ p = .created ∨ p = .updating := by
  cases p <;> simp [Phase.acceptsData]

theorem Phase.acceptsData_eq_false_iff (p : Phase) : p.acceptsData = false ↔ p = .unconfigured ∨ p = .finalized := by
  cases p <;> simp [Phase.acceptsData]

theorem Engine.cursorOk_iff (e : Engine) : e.cursorOk = true ↔ e.cur.toNat < blockSize e.dsel :=
  decide_eq_true_iff

theorem rangeOk_iff (offset length : BitVec 14) (payload : List Word) :
    rangeOk offset length payload = true ↔ offset.toNat + length.toNat ≤ 4 * payload.length :=
  decide_eq_true_iff

theorem selectorOf_eq_some_iff (n : Nat) (d : DigestSel) : selectorOf n = some d ↔ n = digestBits d :=
  ⟨eq_digestBits_of_selectorOf, by rintro rfl; cases d <;> rfl⟩

theorem selectorOf_eq_none_iff (n : Nat) : selectorOf n = none ↔ n ∉ Config.digestSizes := by
  unfold selectorOf
  split_ifs <;> simp_all [Config.digestSizes]

theorem execNew_of_size {dsize : BitVec 10} {d : DigestSel} (size : selectorOf dsize.toNat = some d) (s : State) :
    execNew dsize s = .next (s.succeed { s.engine.clear with dsel := d, phase := .created } []) := by
  simp only [execNew, size]

theorem execNew_of_no_size {dsize : BitVec 10} (size : selectorOf dsize.toNat = none) (s : State) :
    execNew dsize s = .next (s.raise .unsupportedDigestSize) := by
  simp only [execNew, size]

theorem execUpdate_of_accepted {offset length : BitVec 14} {payload : List Word} {s : State}
    (phase : s.engine.phase.acceptsData = true) (range : rangeOk offset length payload = true)
    (cursor : length.toNat = 0 ∨ s.engine.cursorOk = true) :
    execUpdate offset length payload s =
      .next (s.succeed { s.engine.absorbBytes (selectedBytes offset length payload) with phase := .updating } []) := by
  simp only [execUpdate, phase, range, cursor, if_true]

theorem execUpdate_of_wrong_phase {s : State} (phase : s.engine.phase.acceptsData = false) (offset length : BitVec 14)
    (payload : List Word) : execUpdate offset length payload s = .next (s.raise .invalidState) := by
  simp [execUpdate, phase]

theorem execUpdate_of_out_of_range {offset length : BitVec 14} {payload : List Word} {s : State}
    (phase : s.engine.phase.acceptsData = true) (range : rangeOk offset length payload = false) :
    execUpdate offset length payload s = .next (s.raise .argumentRange) := by
  simp [execUpdate, phase, range]

theorem execFinalize_of_accepted {s : State} (phase : s.engine.phase.acceptsData = true) (cursor : s.engine.cursorOk = true) :
    execFinalize s = .next (s.succeed { s.engine.absorbFinal padByte with phase := .finalized }
      (digestWords (s.engine.absorbFinal padByte).squeeze)) := by
  simp only [execFinalize, phase, cursor, if_true]

theorem execFinalize_of_wrong_phase {s : State} (phase : s.engine.phase.acceptsData = false) :
    execFinalize s = .next (s.raise .invalidState) := by
  simp [execFinalize, phase]

theorem execReset_of_configured {s : State} (configured : s.engine.phase ≠ .unconfigured) :
    execReset s = .next (s.succeed { s.engine.clear with phase := .created } []) :=
  if_neg configured

theorem execReset_of_unconfigured {s : State} (unconfigured : s.engine.phase = .unconfigured) :
    execReset s = .next (s.raise .invalidState) :=
  if_pos unconfigured

end Machine
end Sys2Proof
end

section
/-! PROOFS. NEW, UPDATE and RESET (R170, R171, R174). -/

namespace Sys2Proof
namespace Machine

theorem mem_selectorRows_iff (n : Nat) (d : DigestSel) :
    (n, d) ∈ [(224, DigestSel.d224), (256, .d256), (384, .d384), (512, .d512)] ↔ n = digestBits d := by
  cases d <;> simp [digestBits]

/-- Settles O3. -/
theorem newConstructsOrRejects : Obligations.NewConstructsOrRejects := by
  refine fun s dsize => ⟨fun d row => ?constructs, fun others => ?rejects⟩
  case constructs => exact execNew_of_size ((selectorOf_eq_some_iff _ d).mpr ((mem_selectorRows_iff _ d).mp row)) s
  case rejects =>
    have unlisted : dsize.toNat ∉ Config.digestSizes := by simpa [Config.digestSizes] using others
    exact execNew_of_no_size ((selectorOf_eq_none_iff _).mpr unlisted) s

theorem payloadByte_eq_shift (payload : List Word) (j : Nat) :
    payloadByte payload j = ((payload.getD (j / 4) 0) >>> (8 * (j % 4))).setWidth 8 := by
  simp [payloadByte, byteAt, ← BitVec.toNat_inj]

/-- Settles O4: each clause is one outcome of UPDATE, with the payload bytes cut from their words. -/
theorem updateAbsorbsOrRejects : Obligations.UpdateAbsorbsOrRejects := by
  intro s offset length payload
  refine ⟨fun phase range cursor => ?absorbs, fun phase => ?wrongPhase, fun phase range => ?outOfRange⟩
  case absorbs =>
    have cursor' : length.toNat = 0 ∨ s.engine.cursorOk = true :=
      cursor.imp (congrArg BitVec.toNat) s.engine.cursorOk_iff.mpr
    simp only [← payloadByte_eq_shift]
    exact execUpdate_of_accepted ((Phase.acceptsData_iff _).mpr phase) ((rangeOk_iff _ _ _).mpr range) cursor'
  case wrongPhase => exact execUpdate_of_wrong_phase ((Phase.acceptsData_eq_false_iff _).mpr phase) offset length payload
  case outOfRange =>
    have outside : rangeOk offset length payload = false := decide_eq_false (Nat.not_le.mpr range)
    exact execUpdate_of_out_of_range ((Phase.acceptsData_iff _).mpr phase) outside

/-- Settles O7. -/
theorem resetClearsOrRejects : Obligations.ResetClearsOrRejects := by
  refine fun s => ⟨fun phase => ?clears, execReset_of_unconfigured⟩
  case clears =>
    have configured : s.engine.phase ≠ .unconfigured := by
      rcases phase with h | h | h <;> simp [h]
    exact execReset_of_configured configured

end Machine
end Sys2Proof
end

section
/-! PROOFS. FINALIZE (R173): the block it absorbs, the digest words it answers (R93), and their number (R180). -/

namespace Sys2Proof
namespace Machine

theorem laneOfBytes_congr {b c : Nat → Byte} {n i : Nat} (same : ∀ j < n, b j = c j) (inside : i < n / 8) :
    laneOfBytes b i = laneOfBytes c i := by
  simp (disch := omega) only [laneOfBytes, same]

theorem wordOfBytes_congr {b c : Nat → Byte} {n i : Nat} (same : ∀ j < n, b j = c j) (inside : i < n / 4) :
    wordOfBytes b i = wordOfBytes c i := by
  simp (disch := omega) only [wordOfBytes, same]

theorem memRead_eq_toNat_wordOfBytes (b : Nat → Byte) (i : Nat) : memRead b (4 * i) 4 = (wordOfBytes b i).toNat := by
  have empty : memRead b (4 * i) 0 = 0 := rfl
  simp only [wordOfBytes, toNat_append_byte, memRead_succ, empty, Nat.add_zero]
  omega

/-- ABSORB_FINAL, written out: PAD has completed every byte of the block, so XOR_BLOCK reads R146's bytes and no other. -/
theorem Engine.absorbFinal_lanes_eq (e : Engine) (first : Byte) (inBlock : e.cur.toNat < blockSize e.dsel) :
    (e.absorbFinal first).lanes = keccakF (Vector.ofFn fun i : Fin 25 =>
      if i.val < blockSize e.dsel / 8 then e.lanes[i] ^^^ laneOfBytes (finalBlockByte first e) i.val else e.lanes[i]) := by
  have padded (j : Nat) (hj : j < blockSize e.dsel) : (e.pad first).buf.read j = finalBlockByte first e j := by
    rw [e.read_pad first j inBlock, if_pos hj]
  rw [Engine.absorbFinal_lanes]
  refine congrArg keccakF (lanes_ext fun i => ?_)
  rw [Engine.xorBlock_lane_laneOfBytes, Engine.pad_lanes, Engine.pad_dsel]
  simp only [Fin.getElem_fin, Vector.getElem_ofFn]
  split
  · next inside => rw [laneOfBytes_congr padded inside]
  · rfl

/-- R93: the digest words are cut from the state bytes SQUEEZE reads. -/
theorem digestWords_squeeze (e : Engine) :
    digestWords e.squeeze = (List.range (outLen e.dsel / 4)).map (wordOfBytes (stateByte e.lanes)) := by
  have byte (j : Nat) (hj : j < outLen e.dsel) : e.squeeze.getD j 0 = stateByte e.lanes j := by
    simp [Engine.squeeze, hj]
  rw [digestWords, Engine.squeeze_length]
  refine List.map_congr_left fun i hi => ?_
  rw [memRead_eq_toNat_wordOfBytes, BitVec.ofNat_toNat, BitVec.setWidth_eq, wordOfBytes_congr byte (List.mem_range.mp hi)]

/-- Settles O6. -/
theorem finalizeDigestsOrRejects : Obligations.FinalizeDigestsOrRejects := by
  refine fun s => ⟨fun phase inBlock => ?digests, fun phase => ?wrongPhase⟩
  case digests =>
    have run := execFinalize_of_accepted ((Phase.acceptsData_iff _).mpr phase) (s.engine.cursorOk_iff.mpr inBlock)
    refine ⟨_, run, s.engine.absorbFinal_lanes_eq padByte inBlock, ?_, rfl, rfl, ?_, rfl, ?_⟩
    · simp
    · simp
    · rw [State.succeed_responses, digestWords_squeeze, Engine.absorbFinal_dsel]
      rfl
  case wrongPhase => exact execFinalize_of_wrong_phase ((Phase.acceptsData_eq_false_iff _).mpr phase)

/-- Settles O45: `OUTLEN` is `digest_size / 8`, so `OUTLEN / 4` words are `digest_size / 32`. -/
theorem fixedOutputLength : Obligations.FixedOutputLength := by
  intro s inBlock
  simp only [← Phase.acceptsData_iff]
  cases phase : s.engine.phase.acceptsData with
  | true =>
    refine ⟨_, _, _, execFinalize_of_accepted phase (s.engine.cursorOk_iff.mpr inBlock), State.succeed_responses _ _ _, ?_⟩
    have bits := eight_mul_outLen s.engine.dsel
    rw [if_pos rfl, digestWords_length, Engine.squeeze_length, Engine.absorbFinal_dsel]
    omega
  | false => exact ⟨_, _, _, execFinalize_of_wrong_phase phase, State.raise_responses _ _, rfl⟩

end Machine
end Sys2Proof
end

section
/-! PROOFS. STATUS (R175): the status word as a number, and its fields (R31). -/

namespace Sys2Proof
namespace Machine

theorem toNat_append_eq_add {m n : Nat} (x : BitVec m) (y : BitVec n) : (x ++ y).toNat = x.toNat * 2 ^ n + y.toNat := by
  rw [BitVec.toNat_append, ← Nat.shiftLeft_add_eq_or_of_lt y.isLt, Nat.shiftLeft_eq]

theorem toNat_statusWord (e : Engine) :
    (statusWord e).toNat =
      e.lastErr.code.toNat * 2 ^ 12 + e.cur.toNat * 2 ^ 4 + e.dsel.code.toNat * 2 ^ 2 + e.phase.code.toNat := by
  rw [statusWord, BitVec.toNat_setWidth_of_le (by decide)]
  simp only [toNat_append_eq_add]
  omega

theorem statusWord_fields (e : Engine) :
    (statusWord e).extractLsb' 0 2 = e.phase.code ∧ (statusWord e).extractLsb' 2 2 = e.dsel.code ∧
    (statusWord e).extractLsb' 4 8 = e.cur ∧ (statusWord e).extractLsb' 12 4 = e.lastErr.code ∧
    (statusWord e).extractLsb' 16 16 = 0 := by
  simp only [← BitVec.toNat_inj, BitVec.extractLsb'_toNat, toNat_statusWord, Nat.shiftRight_eq_div_pow,
    BitVec.ofNat_eq_ofNat, BitVec.toNat_ofNat]
  omega

/-- Settles O8. -/
theorem statusReportsAndChangesNothing : Obligations.StatusReportsAndChangesNothing := fun s =>
  ⟨statusWord s.engine, rfl, statusWord_fields s.engine⟩

end Machine
end Sys2Proof
end

section
/-! PROOFS. The lifecycle table (R176): its columns by the checks the commands make, and every command against it. -/

namespace Sys2Proof
namespace Machine

/-- `t` follows `s` by an entry of the lifecycle table: it is in the entry's phase and has one response more, with the entry's status. -/
def State.Answers (s t : State) (row : Status × Phase) : Prop :=
  t.engine.phase = row.2 ∧ ∃ data, t.responses = s.responses ++ [row.1.code.setWidth 32 :: data]

theorem State.answers_raise (s : State) (error : Status) : s.Answers (s.raise error) (error, s.engine.phase) :=
  ⟨rfl, [], rfl⟩

theorem State.answers_succeed (s : State) (e : Engine) (data : List Word) : s.Answers (s.succeed e data) (.ok, e.phase) :=
  ⟨rfl, data, rfl⟩

theorem lifecycle_new (p : Phase) (dsize : BitVec 10) :
    lifecycle p (.new dsize) = if dsize.toNat ∈ Config.digestSizes then (.ok, .created) else (.unsupportedDigestSize, p) := by
  cases p <;> rfl

theorem lifecycle_update (p : Phase) (offset length : BitVec 14) (payload : List Word) :
    lifecycle p (.update offset length payload) =
      if p.acceptsData then
        if rangeOk offset length payload then (.ok, .updating) else (.argumentRange, p)
      else (.invalidState, p) := by
  cases p <;> simp [lifecycle, Phase.acceptsData, rangeOk]

theorem lifecycle_finalize (p : Phase) :
    lifecycle p .finalize = if p.acceptsData then (.ok, .finalized) else (.invalidState, p) := by
  cases p <;> rfl

theorem lifecycle_reset (p : Phase) :
    lifecycle p .reset = if p = .unconfigured then (.invalidState, p) else (.ok, .created) := by
  cases p <;> rfl

theorem lifecycle_status (p : Phase) : lifecycle p .status = (.ok, p) := by cases p <;> rfl

/-- R176, command by command: the checks a command makes are the ones its row of the table is split on. -/
theorem exec_answers_lifecycle {s : State} (inBlock : s.engine.cur.toNat < blockSize s.engine.dsel) (i : Instr) :
    ∃ t, exec i s = .next t ∧ s.Answers t (lifecycle s.engine.phase i) := by
  have cursor : s.engine.cursorOk = true := s.engine.cursorOk_iff.mpr inBlock
  cases i with
  | new dsize =>
    rw [lifecycle_new]
    rcases execNew_cases dsize s with ⟨size, run⟩ | ⟨d, size, run⟩
    · rw [if_neg ((selectorOf_eq_none_iff _).mp size)]
      exact ⟨_, run, s.answers_raise _⟩
    · have listed : dsize.toNat ∈ Config.digestSizes := by
        by_contra unlisted
        simp [(selectorOf_eq_none_iff _).mpr unlisted] at size
      rw [if_pos listed]
      exact ⟨_, run, s.answers_succeed _ _⟩
  | update offset length payload =>
    rw [lifecycle_update]
    rcases execUpdate_cases offset length payload s with
      ⟨phase, run⟩ | ⟨phase, range, run⟩ | ⟨phase, range, _, run⟩ | ⟨_, _, _, outside, _⟩
    · simp only [phase]
      exact ⟨_, run, s.answers_raise _⟩
    · simp only [phase, range]
      exact ⟨_, run, s.answers_raise _⟩
    · simp only [phase, range]
      exact ⟨_, run, s.answers_succeed _ _⟩
    · simp [cursor] at outside
  | finalize =>
    rw [lifecycle_finalize]
    rcases execFinalize_cases s with ⟨phase, run⟩ | ⟨phase, _, run⟩ | ⟨_, outside, _⟩
    · simp only [phase]
      exact ⟨_, run, s.answers_raise _⟩
    · simp only [phase]
      exact ⟨_, run, s.answers_succeed _ _⟩
    · simp [cursor] at outside
  | reset =>
    rw [lifecycle_reset]
    rcases execReset_cases s with ⟨phase, run⟩ | ⟨phase, run⟩
    · rw [if_pos phase]
      exact ⟨_, run, s.answers_raise _⟩
    · rw [if_neg phase]
      exact ⟨_, run, s.answers_succeed _ _⟩
  | status =>
    rw [lifecycle_status]
    exact ⟨_, rfl, rfl, _, rfl⟩

/-- Settles O15: the table by `exec_answers_lifecycle`, the ILLEGAL column by R194. -/
theorem lifecycleTable : Obligations.LifecycleTable := by
  refine ⟨fun s i inBlock => ?command, fun s t rest r presented illegal => ?illegal⟩
  case command =>
    obtain ⟨t, run, phase, data, answer⟩ := exec_answers_lifecycle inBlock i
    exact ⟨t, data, run, phase, answer⟩
  case illegal => exact ⟨_, step_of_decode_error presented illegal, rfl, rfl⟩

end Machine
end Sys2Proof
end

section
/-! PROOFS. Errors (R195, R196): the outcomes of a step that completes, and which error is reported where two checks would fail. -/

namespace Sys2Proof
namespace Machine

/-- A completed command has raised an error, or its response has the status code 0. -/
theorem exec_next_cases {i : Instr} {s t : State} (run : exec i s = .next t) :
    (∃ error, t = s.raise error) ∨ ∃ data, t.responses = s.responses ++ [0 :: data] := by
  rcases exec_cases i s with ⟨error, _, raises⟩ | ⟨e, data, _, succeeds⟩ | ⟨_, answers⟩ | ⟨_, faults⟩
  · cases raises.symm.trans run
    exact .inl ⟨error, rfl⟩
  · cases succeeds.symm.trans run
    exact .inr ⟨data, State.succeed_responses _ _ _⟩
  · cases answers.symm.trans run
    exact .inr ⟨_, State.respond_responses _ _ _⟩
  · cases faults.symm.trans run

/-- A completed step was idle, or raised an error for the transaction it took, or added a response with the status code 0. -/
theorem step_next_cases {s s' : State} (run : step s = .next s') :
    s' = s ∨ (∃ error, s' = ({ s with channel := s.channel.tail } : State).raise error) ∨
    ∃ data, s'.responses = s.responses ++ [0 :: data] := by
  rcases step_cases s with ⟨_, idle⟩ | ⟨_, _, _, _, refused⟩ | ⟨_, rest, _, presented, _, runs⟩ | ⟨_, rest, _, presented, _, raises⟩
  · cases idle.symm.trans run
    exact .inl rfl
  · cases refused.symm.trans run
  · have tail : s.channel.tail = rest := congrArg List.tail presented
    rw [tail]
    exact .inr (exec_next_cases (runs.symm.trans run))
  · have tail : s.channel.tail = rest := congrArg List.tail presented
    cases raises.symm.trans run
    exact .inr (.inl ⟨_, by rw [tail]⟩)

/-- Settles O13: of the outcomes of a step, only a raised error adds a response with a nonzero code. -/
theorem errorsLeaveStateUnchanged : Obligations.ErrorsLeaveStateUnchanged := by
  intro s s' code data run answered nonzero
  rcases step_next_cases run with rfl | ⟨error, rfl⟩ | ⟨words, succeeded⟩
  · simp at answered
  · have response : [error.code.setWidth 32] = code :: data := by
      simpa only [State.raise_responses, List.append_cancel_left_eq, List.cons.injEq, and_true] using answered
    cases response
    exact ⟨rfl, rfl, rfl, rfl⟩
  · have response : (0 : Word) :: words = code :: data := by
      simpa only [succeeded, List.append_cancel_left_eq, List.cons.injEq, and_true] using answered
    cases response
    exact absurd rfl nonzero

/-- The phase is checked before the range: out of range, UPDATE still reports a wrong phase where there is one. -/
theorem execUpdate_of_bad_range {offset length : BitVec 14} {payload : List Word}
    (range : 4 * payload.length < offset.toNat + length.toNat) (s : State) :
    execUpdate offset length payload s =
      .next (s.raise (if s.engine.phase = .finalized ∨ s.engine.phase = .unconfigured then .invalidState else .argumentRange)) := by
  have outside : rangeOk offset length payload = false := decide_eq_false (Nat.not_le.mpr range)
  simp only [or_comm (a := s.engine.phase = .finalized), ← Phase.acceptsData_eq_false_iff]
  cases phase : s.engine.phase.acceptsData with
  | true => exact execUpdate_of_out_of_range phase outside
  | false => exact execUpdate_of_wrong_phase phase offset length payload

/-- Settles O16: decoding by R194, the phase before the range by `execUpdate_of_bad_range`, and NEW by its only check. -/
theorem errorPriority : Obligations.ErrorPriority := by
  refine ⟨fun s t rest r presented illegal => ?illegal, fun s offset length payload range => ?update, fun s dsize size => ?new⟩
  case illegal => exact ⟨_, step_of_decode_error presented illegal, State.raise_responses _ _⟩
  case update =>
    refine ⟨_, execUpdate_of_bad_range range s, ?_⟩
    split_ifs <;> exact State.raise_responses _ _
  case new =>
    exact ⟨_, execNew_of_no_size ((selectorOf_eq_none_iff _).mpr size) s, State.raise_responses _ _⟩

end Machine
end Sys2Proof
end

section
/-! PROOFS. The decoder (R89) and the encoder (R83 to R85) undo each other: the command words of formats N and U as numbers, their fields
read back, and each of the decoder's tests on them. -/

namespace Sys2Proof
namespace Machine

theorem toNat_command_new (dsize : BitVec 10) : (encode (.new dsize)).command.toNat = 2 ^ 28 + dsize.toNat := by
  have below : dsize.toNat < 2 ^ 28 := by omega
  have fits : dsize.toNat % 2 ^ 32 = dsize.toNat := Nat.mod_eq_of_lt (by omega)
  calc (encode (.new dsize)).command.toNat
    _ = 2 ^ 28 * 1 ||| dsize.toNat % 2 ^ 32 := by simp [encode]
    _ = 2 ^ 28 + dsize.toNat := by rw [fits, ← Nat.two_pow_add_eq_or_of_lt below, Nat.mul_one]

theorem toNat_command_update (offset length : BitVec 14) (payload : List Word) :
    (encode (.update offset length payload)).command.toNat = 2 * 2 ^ 28 + length.toNat * 2 ^ 14 + offset.toNat := by
  have lengthBelow : length.toNat * 2 ^ 14 < 2 ^ 28 := by omega
  have lengthFits : length.toNat * 2 ^ 14 % 2 ^ 32 = length.toNat * 2 ^ 14 := Nat.mod_eq_of_lt (by omega)
  have offsetFits : offset.toNat % 2 ^ 32 = offset.toNat := Nat.mod_eq_of_lt (by omega)
  calc (encode (.update offset length payload)).command.toNat
    _ = 2 ^ 28 * 2 ||| length.toNat * 2 ^ 14 % 2 ^ 32 ||| offset.toNat % 2 ^ 32 := by simp [encode, Nat.shiftLeft_eq]
    _ = 2 ^ 14 * (2 ^ 15 + length.toNat) ||| offset.toNat := by
      rw [lengthFits, offsetFits, ← Nat.two_pow_add_eq_or_of_lt lengthBelow]
      congr 1
      omega
    _ = 2 * 2 ^ 28 + length.toNat * 2 ^ 14 + offset.toNat := by
      rw [← Nat.two_pow_add_eq_or_of_lt offset.isLt]
      omega

theorem toNat_extractLsb'_word (w : Word) (start len : Nat) :
    (w.extractLsb' start len).toNat = w.toNat / 2 ^ start % 2 ^ len := by
  rw [BitVec.extractLsb'_toNat, Nat.shiftRight_eq_div_pow]

/-- UPDATE's test and NEW's test ask for different values of `OPC`. -/
theorem decode_of_updateMask {w : Word} {payload : List Word} (passes : w &&& 0xF0000000 = 0x20000000)
    (fits : payload.length ≤ Config.kse1.payloadWordsMax) :
    decode ⟨w, payload⟩ = .ok (.update (w.extractLsb' 0 14) (w.extractLsb' 14 14) payload) := by
  have isNotNew : ¬ (w &&& 0xFFFFFC00 = 0x10000000 ∧ payload.length = 0) := by
    rw [newMask_iff, (updateMask_iff w).mp passes]
    simp
  rw [decode, if_neg isNotNew, if_pos ⟨passes, fits⟩]

/-- Format N (R83): NEW's word passes NEW's test, and its field is the operand. -/
theorem decode_encode_new (dsize : BitVec 10) : decode (encode (.new dsize)) = .ok (.new dsize) := by
  have word := toNat_command_new dsize
  have passes : (encode (.new dsize)).command &&& 0xFFFFFC00 = 0x10000000 := by
    rw [newMask_iff, extractLsb'_word_eq_zero_iff, toNat_word_shiftRight, word]
    omega
  have field : (encode (.new dsize)).command.extractLsb' 0 10 = dsize := by
    rw [← BitVec.toNat_inj, toNat_extractLsb'_word, word]
    omega
  rw [decode, if_pos ⟨passes, rfl⟩, field]

/-- Format U (R84): UPDATE's word passes UPDATE's test, and its fields are the operands. -/
theorem decode_encode_update (offset length : BitVec 14) {payload : List Word}
    (fits : payload.length ≤ Config.kse1.payloadWordsMax) :
    decode (encode (.update offset length payload)) = .ok (.update offset length payload) := by
  have word := toNat_command_update offset length payload
  have passes : (encode (.update offset length payload)).command &&& 0xF0000000 = 0x20000000 := by
    rw [updateMask_iff, toNat_word_shiftRight, word]
    omega
  have offsetField : (encode (.update offset length payload)).command.extractLsb' 0 14 = offset := by
    rw [← BitVec.toNat_inj, toNat_extractLsb'_word, word]
    omega
  have lengthField : (encode (.update offset length payload)).command.extractLsb' 14 14 = length := by
    rw [← BitVec.toNat_inj, toNat_extractLsb'_word, word]
    omega
  have decoded := decode_of_updateMask passes fits
  rwa [offsetField, lengthField] at decoded

/-- Settles O20, format by format: N and U by their fields, and the words of format Z, which have none, as they stand. -/
theorem decodeOfEncode : Obligations.DecodeOfEncode := by
  intro i wellFormed
  cases i with
  | new dsize => exact decode_encode_new dsize
  | update offset length payload => exact decode_encode_update offset length (of_decide_eq_true wellFormed)
  | finalize => rfl
  | reset => rfl
  | status => rfl

/-- A word that passes NEW's test is the word of the NEW with its field (R83): `OPC` and the reserved bits are fixed. -/
theorem command_encode_new_of_mask {w : Word} (passes : w &&& 0xFFFFFC00 = 0x10000000) :
    (encode (.new (w.extractLsb' 0 10))).command = w := by
  rw [newMask_iff, extractLsb'_word_eq_zero_iff, toNat_word_shiftRight] at passes
  obtain ⟨opcode, reserved⟩ := passes
  rw [← BitVec.toNat_inj, toNat_command_new, toNat_extractLsb'_word]
  omega

/-- A word that passes UPDATE's test is the word of the UPDATE with its fields (R84): the fields are all its bits below `OPC`. -/
theorem command_encode_update_of_mask {w : Word} (passes : w &&& 0xF0000000 = 0x20000000) (payload : List Word) :
    (encode (.update (w.extractLsb' 0 14) (w.extractLsb' 14 14) payload)).command = w := by
  rw [updateMask_iff, toNat_word_shiftRight] at passes
  rw [← BitVec.toNat_inj, toNat_command_update, toNat_extractLsb'_word, toNat_extractLsb'_word]
  omega

/-- Settles O21, along the decoder's tests: each leaves the word and the number of payload words no freedom but the operands. -/
theorem onlyEncodingsDecode : Obligations.OnlyEncodingsDecode := by
  rintro ⟨w, payload⟩ i decoded
  simp only [decode, List.length_eq_zero_iff] at decoded
  split_ifs at decoded with new update finalize reset status <;> cases decoded
  · obtain ⟨passes, rfl⟩ := new
    exact ⟨congrArg (Transaction.mk · []) (command_encode_new_of_mask passes), rfl⟩
  · obtain ⟨passes, fits⟩ := update
    exact ⟨congrArg (Transaction.mk · payload) (command_encode_update_of_mask passes payload), decide_eq_true fits⟩
  · obtain ⟨rfl, rfl⟩ := finalize
    exact ⟨rfl, rfl⟩
  · obtain ⟨rfl, rfl⟩ := reset
    exact ⟨rfl, rfl⟩
  · obtain ⟨rfl, rfl⟩ := status
    exact ⟨rfl, rfl⟩

end Machine
end Sys2Proof
end

section
/-! PROOFS. The invariant (R38): what absorbing bytes keeps of it, each command, and a step. -/

namespace Sys2Proof
namespace Machine

/-- The part of `Engine.Inv` that speaks of the pending buffer and the cursor and of no phase: what the sponge's operations keep. -/
structure Engine.BufferInv (e : Engine) : Prop where
  bufWf : e.buf.wf
  cursorInBlock : e.cur.toNat < blockSize e.dsel
  pendingSpecified : ∀ j < e.cur.toNat, e.buf.specified j = true

theorem Engine.Inv.bufferInv {e : Engine} (inv : e.Inv) : e.BufferInv :=
  ⟨inv.bufWf, inv.cursorInBlock, inv.pendingSpecified⟩

theorem Engine.bufferInv_absorbBlock (e : Engine) : e.absorbBlock.BufferInv where
  bufWf := by simpa using Memory.wf_lose e.draws
  cursorInBlock := by simpa using blockSize_pos e.dsel
  pendingSpecified := by simp

/-- The byte stored lies inside the physical buffer, and the one index that becomes pending is the one just written. -/
theorem Engine.BufferInv.putByte {e : Engine} (inv : e.BufferInv) (b : Byte) (room : e.cur.toNat + 1 < blockSize e.dsel) :
    (e.putByte b).BufferInv where
  bufWf := Memory.wf_write inv.bufWf (inv.cursorInBlock.trans_le (blockSize_le e.dsel)) b
  cursorInBlock := by rwa [e.putByte_cur_toNat b inv.cursorInBlock]
  pendingSpecified j hj := by
    rw [e.putByte_cur_toNat b inv.cursorInBlock] at hj
    rw [Engine.putByte_buf, Memory.specified_write, Bool.or_eq_true, decide_eq_true_iff]
    exact (Nat.lt_succ_iff_lt_or_eq.mp hj).imp_left (inv.pendingSpecified j)

theorem Engine.BufferInv.absorbByte {e : Engine} (inv : e.BufferInv) (b : Byte) : (e.absorbByte b).BufferInv := by
  rw [e.absorbByte_eq b inv.cursorInBlock]
  split
  · exact Engine.bufferInv_absorbBlock _
  · exact inv.putByte b (by have := inv.cursorInBlock; omega)

theorem Engine.BufferInv.absorbBytes {e : Engine} (inv : e.BufferInv) (data : List Byte) : (e.absorbBytes data).BufferInv := by
  induction data generalizing e with
  | nil => exact inv
  | cons b rest ih => exact ih (inv.absorbByte b)

theorem Engine.Inv.withLastErr {e : Engine} (inv : e.Inv) (code : Status) : Engine.Inv { e with lastErr := code } :=
  ⟨inv.bufWf, inv.cursorInBlock, inv.cursorZero, inv.createdLanes, inv.unconfigured, inv.pendingSpecified⟩

theorem State.Inv.raise {s : State} (inv : s.Inv) (error : Status) : (s.raise error).Inv := inv.withLastErr error

/-- What NEW and RESET leave, for whatever digest size. -/
theorem State.inv_succeed_clear (s : State) (d : DigestSel) (data : List Word) :
    (s.succeed { s.engine.clear with dsel := d, phase := .created } data).Inv where
  bufWf := Memory.wf_zero
  cursorInBlock := blockSize_pos d
  cursorZero _ := rfl
  createdLanes _ := rfl
  unconfigured h := by cases h
  pendingSpecified _ _ := rfl

theorem State.Inv.succeed_update {s : State} (inv : s.Inv) (bytes : List Byte) (data : List Word) :
    (s.succeed { s.engine.absorbBytes bytes with phase := .updating } data).Inv where
  bufWf := (inv.bufferInv.absorbBytes bytes).bufWf
  cursorInBlock := (inv.bufferInv.absorbBytes bytes).cursorInBlock
  cursorZero h := absurd rfl h
  createdLanes h := by cases h
  unconfigured h := by cases h
  pendingSpecified := (inv.bufferInv.absorbBytes bytes).pendingSpecified

/-- FINALIZE leaves the cursor at 0, so no byte of the lost buffer is pending. -/
theorem State.inv_succeed_finalize (s : State) (first : Byte) (data : List Word) :
    (s.succeed { s.engine.absorbFinal first with phase := .finalized } data).Inv where
  bufWf := ((s.engine.pad first).bufferInv_absorbBlock).bufWf
  cursorInBlock := ((s.engine.pad first).bufferInv_absorbBlock).cursorInBlock
  cursorZero _ := s.engine.absorbFinal_cur first
  createdLanes h := by cases h
  unconfigured h := by cases h
  pendingSpecified := ((s.engine.pad first).bufferInv_absorbBlock).pendingSpecified

theorem exec_keeps_inv {i : Instr} {s t : State} (inv : s.Inv) (run : exec i s = .next t) : t.Inv := by
  cases i with
  | new dsize =>
    rcases execNew_cases dsize s with ⟨_, rejects⟩ | ⟨d, _, constructs⟩
    · cases rejects.symm.trans run
      exact inv.raise _
    · cases constructs.symm.trans run
      exact s.inv_succeed_clear d []
  | update offset length payload =>
    rcases execUpdate_cases offset length payload s with
      ⟨_, rejects⟩ | ⟨_, _, rejects⟩ | ⟨_, _, _, absorbs⟩ | ⟨_, _, _, _, faults⟩
    · cases rejects.symm.trans run
      exact inv.raise _
    · cases rejects.symm.trans run
      exact inv.raise _
    · cases absorbs.symm.trans run
      exact inv.succeed_update _ []
    · cases faults.symm.trans run
  | finalize =>
    rcases execFinalize_cases s with ⟨_, rejects⟩ | ⟨_, _, digests⟩ | ⟨_, _, faults⟩
    · cases rejects.symm.trans run
      exact inv.raise _
    · cases digests.symm.trans run
      exact s.inv_succeed_finalize _ _
    · cases faults.symm.trans run
  | reset =>
    rcases execReset_cases s with ⟨_, rejects⟩ | ⟨_, clears⟩
    · cases rejects.symm.trans run
      exact inv.raise _
    · cases clears.symm.trans run
      exact s.inv_succeed_clear s.engine.dsel []
  | status =>
    cases run
    exact inv

/-- Settles O47: a command by `exec_keeps_inv`; an idle step and an illegal transaction change nothing the invariant reads. -/
theorem stepKeepsInvariant : Obligations.StepKeepsInvariant := by
  intro s s' inv run
  rcases step_cases s with ⟨_, idle⟩ | ⟨_, _, _, _, refused⟩ | ⟨_, rest, i, _, _, runs⟩ | ⟨_, rest, _, _, _, raises⟩
  · cases idle.symm.trans run
    exact inv
  · cases refused.symm.trans run
  · exact exec_keeps_inv (s := { s with channel := rest }) inv (runs.symm.trans run)
  · cases raises.symm.trans run
    exact State.Inv.raise (s := { s with channel := rest }) inv _

/-- Settles O46. -/
theorem invariantHoldsAtReset : Obligations.InvariantHoldsAtReset where
  bufWf := Memory.wf_zero
  cursorInBlock := blockSize_pos .d224
  cursorZero _ := rfl
  createdLanes _ := rfl
  unconfigured _ := ⟨rfl, rfl, rfl⟩
  pendingSpecified _ _ := rfl

/-- Settles O48: the cursor is inside the block by the invariant, so no command faults, and without an overlap no step is refused. -/
theorem engineNeverStops : Obligations.EngineNeverStops := by
  intro s inv serial
  rcases step_cases s with ⟨_, idle⟩ | ⟨running, forced, rest, overlap, _⟩ | ⟨_, rest, i, _, _, runs⟩ | ⟨_, _, _, _, _, raises⟩
  · exact ⟨_, idle⟩
  · exact absurd overlap (serial running forced rest)
  · obtain ⟨t, completes, _⟩ := exec_answers_lifecycle (s := { s with channel := rest }) inv.cursorInBlock i
    exact ⟨t, runs.trans completes⟩
  · exact ⟨_, raises⟩

end Machine
end Sys2Proof
end

section
/-! PROOFS. The step on each kind of event (R177, R223), what one step adds to the responses and to `LASTERR` (R30, R80, R92), and the
step of one engine of a chip (R203). -/

namespace Sys2Proof
namespace Machine

theorem step_of_idle {s : State} (idle : s.channel = []) : step s = .next s := by
  simp only [step, fetch, idle]

theorem step_of_overlap {s : State} {running forced : Transaction} {rest : List ChannelEvent}
    (overlap : s.channel = .overlap running forced :: rest) : step s = .refused .overlappingTransactions := by
  simp only [step, fetch, overlap]

theorem step_of_decode_ok {s : State} {t : Transaction} {rest : List ChannelEvent} {i : Instr}
    (presented : s.channel = .transaction t :: rest) (decoded : decode t = .ok i) :
    step s = exec i { s with channel := rest } := by
  simp only [step, fetch, presented, decoded]

/-- Settles O10. -/
theorem stepRunsDecodedCommand : Obligations.StepRunsDecodedCommand := fun _ _ _ _ => step_of_decode_ok

/-- Settles O11. -/
theorem idleStepAndOverlap : Obligations.IdleStepAndOverlap := ⟨fun _ => step_of_idle, fun _ _ _ _ => step_of_overlap⟩

/-- `t` follows `s` by the answer to one transaction: the channel stays, one response is added after those already sent, and its status
code is what `LASTERR` records, unless the transaction is a STATUS (R30). -/
structure State.AnsweredOnce (s t : State) (isStatus : Prop) (code : Status) : Prop where
  channel : t.channel = s.channel
  response : ∃ data, t.responses = s.responses ++ [code.code.setWidth 32 :: data]
  kept : isStatus → t.engine.lastErr = s.engine.lastErr
  recorded : ¬ isStatus → t.engine.lastErr = code

theorem State.answeredOnce_raise {isStatus : Prop} (other : ¬ isStatus) (s : State) (error : Status) :
    s.AnsweredOnce (s.raise error) isStatus error :=
  ⟨rfl, ⟨[], rfl⟩, fun h => absurd h other, fun _ => rfl⟩

theorem State.answeredOnce_succeed {isStatus : Prop} (other : ¬ isStatus) (s : State) (e : Engine) (data : List Word) :
    s.AnsweredOnce (s.succeed e data) isStatus .ok :=
  ⟨rfl, ⟨data, rfl⟩, fun h => absurd h other, fun _ => rfl⟩

theorem exec_answeredOnce {i : Instr} {s t : State} (run : exec i s = .next t) : ∃ code, s.AnsweredOnce t (i = .status) code := by
  by_cases status : i = .status
  · subst status
    cases run
    exact ⟨.ok, rfl, ⟨_, rfl⟩, fun _ => rfl, fun other => absurd rfl other⟩
  · rcases exec_cases i s with ⟨error, _, raises⟩ | ⟨e, data, _, succeeds⟩ | ⟨isStatus, _⟩ | ⟨_, faults⟩
    · cases raises.symm.trans run
      exact ⟨error, s.answeredOnce_raise status error⟩
    · cases succeeds.symm.trans run
      exact ⟨.ok, s.answeredOnce_succeed status e data⟩
    · exact absurd isStatus status
    · cases faults.symm.trans run

theorem step_answeredOnce {s s' : State} {t : Transaction} {rest : List ChannelEvent} (presented : s.channel = .transaction t :: rest)
    (run : step s = .next s') : ∃ code, State.AnsweredOnce { s with channel := rest } s' (decode t = .ok .status) code := by
  cases decoded : decode t with
  | ok i =>
    rw [Except.ok.injEq]
    exact exec_answeredOnce ((step_of_decode_ok presented decoded).symm.trans run)
  | error r =>
    cases (step_of_decode_error presented decoded).symm.trans run
    exact ⟨.illegalCommand, State.answeredOnce_raise (by simp) _ _⟩

/-- Settles O12: an empty channel, an overlap, which no step completes, or a transaction, which is answered once. -/
theorem oneResponsePerTransaction : Obligations.OneResponsePerTransaction := by
  intro s s' run
  match presented : s.channel with
  | [] =>
    cases (step_of_idle presented).symm.trans run
    exact .inl ⟨rfl, rfl⟩
  | .overlap _ _ :: _ => cases (step_of_overlap presented).symm.trans run
  | .transaction t :: rest =>
    obtain ⟨code, answered⟩ := step_answeredOnce presented run
    obtain ⟨data, response⟩ := answered.response
    exact .inr ⟨t, rest, _, data, rfl, answered.channel, response⟩

/-- Settles O14: the response the step added is the one that `step_answeredOnce` speaks of. -/
theorem lastErrRecordsOutcome : Obligations.LastErrRecordsOutcome := by
  intro s s' t rest word words presented run added
  obtain ⟨code, answered⟩ := step_answeredOnce presented run
  obtain ⟨data, response⟩ := answered.response
  have sameWord : code.code.setWidth 32 = word := by
    rw [added, List.append_cancel_left_eq, List.cons.injEq, List.cons.injEq] at response
    exact response.1.1.symm
  exact ⟨answered.kept, fun other => by rw [answered.recorded other, sameWord]⟩

/-- Settles O50: the engine's outcome is put back in its place of the list. -/
theorem enginesOfAChipAreIndependent : Obligations.EnginesOfAChipAreIndependent := by
  intro chip chip' n s engine run
  have inside : n < chip.length := (List.getElem?_eq_some_iff.mp engine).1
  simp only [Chip.step, engine] at run
  cases stepped : step s with
  | next s' =>
    simp only [stepped, Host.Outcome.next.injEq] at run
    subst run
    exact ⟨⟨s', rfl, List.getElem?_set_self inside⟩, List.length_set, fun k other => List.getElem?_set_ne other.symm⟩
  | fault r => simp [stepped] at run
  | refused r => simp [stepped] at run

end Machine
end Sys2Proof
end

section
/-! PROOFS. The unspecified buffer bytes are invisible (R26, U6): a simulation between states alike in all but those bytes, command by
command and for a step. -/

namespace Sys2Proof
namespace Machine

/-- Two states alike in everything a rule can read: `Engine.SameVisible`, with the same channel and the same responses sent. -/
structure State.SameVisible (s1 s2 : State) : Prop where
  engine : s1.engine.SameVisible s2.engine
  channel : s1.channel = s2.channel
  responses : s1.responses = s2.responses

theorem Engine.SameVisible.sponge {e f : Engine} (same : e.SameVisible f) : e.SameSponge f :=
  ((Engine.sameVisible_iff e f).mp same).1

theorem Engine.SameVisible.cursorOk {e f : Engine} (same : e.SameVisible f) : e.cursorOk = f.cursorOk := by
  rw [Engine.cursorOk, Engine.cursorOk, same.cur, same.dsel]

theorem State.SameVisible.raise {s1 s2 : State} (same : s1.SameVisible s2) (error : Status) :
    (s1.raise error).SameVisible (s2.raise error) where
  engine := ⟨same.engine.lanes, same.engine.cur, same.engine.dsel, same.engine.phase, rfl, same.engine.pending⟩
  channel := same.channel
  responses := congrArg (· ++ [[error.code.setWidth 32]]) same.responses

/-- A success sets `LASTERR` and its command the phase, so what the sponge left decides. -/
theorem State.SameVisible.succeed {s1 s2 : State} (same : s1.SameVisible s2) {e f : Engine} (sponge : e.SameSponge f)
    (phase : Phase) (data : List Word) :
    (s1.succeed { e with phase := phase } data).SameVisible (s2.succeed { f with phase := phase } data) where
  engine := ⟨sponge.lanes, sponge.cur, sponge.dsel, rfl, rfl, sponge.pending⟩
  channel := same.channel
  responses := congrArg (· ++ [0 :: data]) same.responses

theorem Engine.sameSponge_clear (e f : Engine) (d : DigestSel) :
    Engine.SameSponge { e.clear with dsel := d } { f.clear with dsel := d } :=
  ⟨rfl, rfl, rfl, fun _ _ => rfl⟩

theorem finalBlockByte_congr {e f : Engine} (same : e.SameSponge f) (first : Byte) :
    finalBlockByte first e = finalBlockByte first f := by
  funext j
  simp only [finalBlockByte, ← same.cur, ← same.dsel]
  split
  · next pending => rw [same.pending j pending]
  · rfl

/-- ABSORB_FINAL reads the completed block, in which no byte is unspecified, and leaves no byte pending. -/
theorem Engine.SameSponge.absorbFinal {e f : Engine} (same : e.SameSponge f) (inBlock : e.cur.toNat < blockSize e.dsel)
    (first : Byte) : (e.absorbFinal first).SameSponge (f.absorbFinal first) where
  lanes := by
    rw [e.absorbFinal_lanes_eq first inBlock, f.absorbFinal_lanes_eq first (same.cur ▸ same.dsel ▸ inBlock),
      finalBlockByte_congr same, same.lanes, same.dsel]
  cur := by simp
  dsel := by simp [same.dsel]
  pending j hj := by simp at hj

/-- The simulation, command by command: the checks read visible fields alone, so both states take the same branch. -/
theorem exec_sameVisible {i : Instr} {s1 s2 t1 : State} (same : s1.SameVisible s2) (run : exec i s1 = .next t1) :
    ∃ t2, exec i s2 = .next t2 ∧ t1.SameVisible t2 := by
  cases i with
  | new dsize =>
    rcases execNew_cases dsize s1 with ⟨size, rejects⟩ | ⟨d, size, constructs⟩
    · cases rejects.symm.trans run
      exact ⟨_, execNew_of_no_size size s2, same.raise _⟩
    · cases constructs.symm.trans run
      exact ⟨_, execNew_of_size size s2, same.succeed (Engine.sameSponge_clear _ _ d) _ _⟩
  | update offset length payload =>
    rcases execUpdate_cases offset length payload s1 with
      ⟨phase, rejects⟩ | ⟨phase, range, rejects⟩ | ⟨phase, range, cursor, absorbs⟩ | ⟨_, _, _, _, faults⟩
    · cases rejects.symm.trans run
      exact ⟨_, execUpdate_of_wrong_phase (same.engine.phase ▸ phase) _ _ _, same.raise _⟩
    · cases rejects.symm.trans run
      exact ⟨_, execUpdate_of_out_of_range (same.engine.phase ▸ phase) range, same.raise _⟩
    · cases absorbs.symm.trans run
      exact ⟨_, execUpdate_of_accepted (same.engine.phase ▸ phase) range (same.engine.cursorOk ▸ cursor),
        same.succeed (same.engine.sponge.absorbBytes _) _ _⟩
    · cases faults.symm.trans run
  | finalize =>
    rcases execFinalize_cases s1 with ⟨phase, rejects⟩ | ⟨phase, cursor, digests⟩ | ⟨_, _, faults⟩
    · cases rejects.symm.trans run
      exact ⟨_, execFinalize_of_wrong_phase (same.engine.phase ▸ phase), same.raise _⟩
    · cases digests.symm.trans run
      have inBlock : s1.engine.cur.toNat < blockSize s1.engine.dsel := s1.engine.cursorOk_iff.mp cursor
      rw [same.engine.sponge.squeeze_absorbFinal inBlock]
      exact ⟨_, execFinalize_of_accepted (same.engine.phase ▸ phase) (same.engine.cursorOk ▸ cursor),
        same.succeed (same.engine.sponge.absorbFinal inBlock padByte) _ _⟩
    · cases faults.symm.trans run
  | reset =>
    rcases execReset_cases s1 with ⟨phase, rejects⟩ | ⟨phase, clears⟩
    · cases rejects.symm.trans run
      exact ⟨_, execReset_of_unconfigured (same.engine.phase ▸ phase), same.raise _⟩
    · cases clears.symm.trans run
      have cleared : s1.engine.clear.SameSponge s2.engine.clear := ⟨rfl, rfl, same.engine.dsel, fun _ _ => rfl⟩
      exact ⟨_, execReset_of_configured (same.engine.phase ▸ phase), same.succeed cleared _ _⟩
  | status =>
    cases run
    have word : statusWord s1.engine = statusWord s2.engine := by
      simp only [statusWord, same.engine.lastErr, same.engine.cur, same.engine.dsel, same.engine.phase]
    exact ⟨_, rfl, same.engine, same.channel, congrArg₂ (fun sent w => sent ++ [[0, w]]) same.responses word⟩

theorem State.SameVisible.withChannel {s1 s2 : State} (same : s1.SameVisible s2) (rest : List ChannelEvent) :
    State.SameVisible { s1 with channel := rest } { s2 with channel := rest } :=
  ⟨same.engine, rfl, same.responses⟩

theorem step_sameVisible {s1 s2 t1 : State} (same : s1.SameVisible s2) (run : step s1 = .next t1) :
    ∃ t2, step s2 = .next t2 ∧ t1.SameVisible t2 := by
  rcases step_cases s1 with ⟨idle, stays⟩ | ⟨_, _, _, _, refused⟩ | ⟨t, rest, i, presented, decoded, runs⟩ |
      ⟨t, rest, r, presented, illegal, raises⟩
  · cases stays.symm.trans run
    exact ⟨s2, step_of_idle (same.channel ▸ idle), same⟩
  · cases refused.symm.trans run
  · obtain ⟨t2, run2, same2⟩ := exec_sameVisible (same.withChannel rest) (runs.symm.trans run)
    exact ⟨t2, (step_of_decode_ok (same.channel ▸ presented) decoded).trans run2, same2⟩
  · cases raises.symm.trans run
    exact ⟨_, step_of_decode_error (same.channel ▸ presented) illegal, (same.withChannel rest).raise _⟩

/-- Settles O49. -/
theorem unspecifiedBytesAreInvisible : Obligations.UnspecifiedBytesAreInvisible := by
  intro s1 s2 t1 engine channel responses run
  obtain ⟨t2, run2, same⟩ := step_sameVisible ⟨engine, channel, responses⟩ run
  exact ⟨t2, run2, same.engine, same.channel, same.responses⟩

end Machine
end Sys2Proof
end

section
/-! PROOFS. The assembler's packing (R86, R95) and the expansion of ABSORB (R96): the packed payload word by word, and the pieces the data is
cut into. -/

namespace Sys2Proof
namespace Machine

theorem byteAt_wordOfBytes (b : Nat → Byte) (i : Nat) {k : Nat} (hk : k < 4) :
    byteAt (wordOfBytes b i).toNat k = b (4 * i + k) := by
  rw [← memRead_eq_toNat_wordOfBytes, byteAt_memRead _ _ hk]

/-- Payload word `i` is formed of the bytes `4 * i` to `4 * i + 3`, zero bytes standing beyond the end of the data. -/
theorem packBytes_eq_map_wordOfBytes (data : List Byte) :
    packBytes data = (List.range ((data.length + 3) / 4)).map (wordOfBytes fun j => data.getD j 0) := by
  induction data using packBytes.induct with
  | case1 => rfl
  | case2 b0 => simp [packBytes, packWord, wordOfBytes]
  | case3 b0 b1 => simp [packBytes, packWord, wordOfBytes]
  | case4 b0 b1 b2 => simp [packBytes, packWord, wordOfBytes]
  | case5 b0 b1 b2 b3 rest ih =>
    have words : ((b0 :: b1 :: b2 :: b3 :: rest).length + 3) / 4 = (rest.length + 3) / 4 + 1 := by
      simp only [List.length_cons]
      omega
    rw [packBytes, ih, words, List.range_succ_eq_map, List.map_cons, List.map_map]
    rfl

theorem length_packBytes (data : List Byte) : (packBytes data).length = (data.length + 3) / 4 := by
  rw [packBytes_eq_map_wordOfBytes, List.length_map, List.length_range]

theorem payloadByte_packBytes {data : List Byte} {j : Nat} (inside : j < 4 * (packBytes data).length) :
    payloadByte (packBytes data) j = data.getD j 0 := by
  have word : j / 4 < (data.length + 3) / 4 := by
    rw [length_packBytes] at inside
    omega
  have place : 4 * (j / 4) + j % 4 = j := Nat.div_add_mod j 4
  rw [payloadByte, packBytes_eq_map_wordOfBytes, List.getD_eq_getElem?_getD, List.getElem?_map, List.getElem?_range word,
    Option.map_some, Option.getD_some, byteAt_wordOfBytes _ _ (Nat.mod_lt j (by decide)), place]

/-- Settles O22. -/
theorem packedBytesAreThePayload : Obligations.PackedBytesAreThePayload := fun data =>
  ⟨length_packBytes data, fun _ => payloadByte_packBytes⟩

/-! ABSORB -/

theorem length_le_of_mem_splitEvery {n fuel : Nat} {l piece : List Byte} (mem : piece ∈ splitEvery n fuel l) :
    piece.length ≤ n := by
  induction fuel generalizing l with
  | zero => simp [splitEvery] at mem
  | succ fuel ih =>
    rw [splitEvery] at mem
    split at mem
    · next short =>
      rw [List.mem_singleton.mp mem]
      exact short
    · rcases List.mem_cons.mp mem with rfl | later
      · exact List.length_take_le n l
      · exact ih later

/-- Every piece but the last takes bytes off the data, so as much fuel as there are bytes, and one more, is enough. -/
theorem flatten_splitEvery {n fuel : Nat} {l : List Byte} (positive : 0 < n) (enough : l.length < fuel) :
    (splitEvery n fuel l).flatten = l := by
  induction fuel generalizing l with
  | zero => exact absurd enough (Nat.not_lt_zero _)
  | succ fuel ih =>
    rw [splitEvery]
    split
    · exact List.flatten_singleton
    · have shorter : (l.drop n).length < fuel := by
        rw [List.length_drop]
        omega
      rw [List.flatten_cons, ih shorter, List.take_append_drop]

/-- The operands of the UPDATE that carries a piece of data (R95). -/
def UpdateArgs.ofData (data : List Byte) : UpdateArgs :=
  { offset := 0, length := BitVec.ofNat 14 data.length, payload := packBytes data }

theorem UpdateArgs.length_ofData {data : List Byte} (short : data.length ≤ 4096) :
    (UpdateArgs.ofData data).length.toNat = data.length := by
  rw [UpdateArgs.ofData, BitVec.toNat_ofNat, Nat.mod_eq_of_lt (by omega)]

theorem UpdateArgs.wellFormed_ofData {data : List Byte} (short : data.length ≤ 4096) :
    WellFormed (UpdateArgs.ofData data).instr = true := by
  have words : (packBytes data).length ≤ 1024 := by
    rw [length_packBytes]
    omega
  exact decide_eq_true words

theorem UpdateArgs.inRange_ofData {data : List Byte} (short : data.length ≤ 4096) : (UpdateArgs.ofData data).inRange := by
  have offset : (UpdateArgs.ofData data).offset.toNat = 0 := rfl
  have words : (UpdateArgs.ofData data).payload.length = (data.length + 3) / 4 := length_packBytes data
  rw [UpdateArgs.inRange, UpdateArgs.length_ofData short, offset, words]
  omega

theorem UpdateArgs.data_ofData {data : List Byte} (short : data.length ≤ 4096) : (UpdateArgs.ofData data).data = data := by
  have padded : data.length ≤ 4 * (packBytes data).length := by
    rw [length_packBytes]
    omega
  have byte (j : Nat) (hj : j < data.length) : payloadByte (packBytes data) j = data[j] := by
    rw [payloadByte_packBytes (hj.trans_le padded), List.getD_eq_getElem _ _ hj]
  refine List.ext_getElem ?_ fun j _ hj => ?_
  · rw [UpdateArgs.data, selectedBytes_length, UpdateArgs.length_ofData short]
  · simpa [UpdateArgs.data, selectedBytes, UpdateArgs.ofData] using byte j hj

/-- Settles O23, with the pieces `splitEvery` cuts, whichever these are: none is too long for one UPDATE, and joined they are the data. -/
theorem absorbLinesCarryTheData : Obligations.AbsorbLinesCarryTheData := by
  intro data
  have short {piece : List Byte} (mem : piece ∈ splitEvery 4096 (data.length + 1) data) : piece.length ≤ 4096 :=
    length_le_of_mem_splitEvery mem
  refine ⟨(splitEvery 4096 (data.length + 1) data).map UpdateArgs.ofData, ?expansion, ?operands, ?bytes⟩
  case expansion =>
    rw [List.map_map]
    rfl
  case operands =>
    intro u mem
    obtain ⟨piece, pieceMem, rfl⟩ := List.mem_map.mp mem
    exact ⟨UpdateArgs.wellFormed_ofData (short pieceMem), UpdateArgs.inRange_ofData (short pieceMem)⟩
  case bytes =>
    rw [List.flatMap_map]
    calc (splitEvery 4096 (data.length + 1) data).flatMap (fun piece => (UpdateArgs.ofData piece).data)
      _ = (splitEvery 4096 (data.length + 1) data).flatMap id :=
        List.flatMap_congr fun piece mem => UpdateArgs.data_ofData (short mem)
      _ = data := by rw [List.flatMap_id, flatten_splitEvery (by decide) data.length.lt_succ_self]

/-- Settles O19: one transaction of each format at the bounds of its fields, and three rejections, evaluated. -/
theorem vectorWordsDecode : Obligations.VectorWordsDecode :=
  ⟨rfl, rfl, rfl, rfl, rfl, rfl, rfl, rfl, rfl, rfl⟩

end Machine
end Sys2Proof
end

section
/-! PROOFS. Byte views: the digest words as lane halves (R93), and a wide read of what a wide write stored (R12, R51). -/

namespace Sys2Proof
namespace Machine

/-- Four state bytes that begin at a multiple of four are a half of one lane. -/
theorem wordOfBytes_stateByte (a : Lanes) {w : Nat} (hw : w < 50) :
    wordOfBytes (stateByte a) w = (a.toList.getD (w / 2) 0 >>> (32 * (w % 2))).setWidth 32 := by
  obtain ⟨i, half, hhalf, rfl⟩ : ∃ (i : Fin 25) (half : Nat), half < 2 ∧ 2 * i.val + half = w :=
    ⟨⟨w / 2, by omega⟩, w % 2, Nat.mod_lt w (by decide), Nat.div_add_mod w 2⟩
  have lane : (2 * i.val + half) / 2 = i.val := by omega
  have side : (2 * i.val + half) % 2 = half := by omega
  have bytes (k : Nat) (hk : k < 4) :
      stateByte a (4 * (2 * i.val + half) + k) = byteAt (a[i] >>> (32 * half)).toNat k := by
    have place : 4 * (2 * i.val + half) + k = 8 * i.val + (4 * half + k) := by omega
    have shift : 8 * (4 * half + k) = 32 * half + 8 * k := by omega
    rw [place, stateByte_eq_byteAt_lane a i (by omega), byteAt_toNat, byteAt_toNat, shift, BitVec.shiftRight_add]
  have word : memRead (stateByte a) (4 * (2 * i.val + half)) 4 = (a[i] >>> (32 * half)).toNat % 256 ^ 4 :=
    memRead_eq_mod_of_bytes bytes
  rw [← BitVec.toNat_inj, ← memRead_eq_toNat_wordOfBytes, word, lane, side, BitVec.toNat_setWidth]
  simp

theorem outLen_le (d : DigestSel) : outLen d ≤ 64 := by cases d <;> decide

/-- Settles O26. -/
theorem digestWordsAreLaneHalves : Obligations.DigestWordsAreLaneHalves := by
  intro e w
  rw [digestWords_squeeze, List.getElem?_map]
  split
  · next inside =>
    have lane : w < 50 := by
      have := outLen_le e.dsel
      omega
    rw [List.getElem?_range inside, Option.map_some, wordOfBytes_stateByte e.lanes lane]
  · next outside =>
    rw [List.getElem?_eq_none (by simpa using outside), Option.map_none]

/-- Each byte of a wide write is a byte of the value, and no other byte of the memory changes. -/
theorem Memory.read_writeWide (m : Memory) (a n v j : Nat) :
    (m.writeWide a n v).read j = if a ≤ j ∧ j < a + n then byteAt v (j - a) else m.read j := by
  induction n with
  | zero =>
    have none : ¬ (a ≤ j ∧ j < a + 0) := by omega
    rw [if_neg none]
    rfl
  | succ n ih =>
    have last : m.writeWide a (n + 1) v = (m.writeWide a n v).write (a + n) (byteAt v n) := by
      rw [Memory.writeWide, List.range_succ, List.foldl_append]
      rfl
    rw [last, Memory.read_write, ih]
    by_cases top : j = a + n
    · have inside : a ≤ j ∧ j < a + (n + 1) := by omega
      have place : j - a = n := by omega
      rw [if_pos top, if_pos inside, place]
    · have same : (a ≤ j ∧ j < a + (n + 1)) ↔ a ≤ j ∧ j < a + n := by omega
      simp only [top, if_false, same]

/-- Settles O27. -/
theorem wideReadAfterWrite : Obligations.WideReadAfterWrite := by
  refine fun m a n v => ⟨memRead_eq_mod_of_bytes fun k hk => ?inside, fun j outside => ?outside⟩
  case inside => rw [Memory.read_writeWide, if_pos (by omega), Nat.add_sub_cancel_left]
  case outside => rw [Memory.read_writeWide, if_neg (by omega)]

end Machine
end Sys2Proof
end

section
/-! PROOFS. The five steps bit by bit (R121), RHO and PI as one rewiring (R120), and the steps that act on single lanes, bits or rows as
bijections (R123). -/

namespace Sys2Proof
namespace Machine

theorem getLsbD_rol_one (x : Lane) {z : Nat} (hz : z < 64) : (rol x 1).getLsbD z = x.getLsbD ((z + 63) % 64) := by
  have back : ((z + 63) % 64 + 1) % 64 = z := by omega
  rw [← getLsbD_rol_add_mod x 1 (Nat.mod_lt _ (by decide)), back]

theorem getLsbD_columnParity (a : Lanes) (x z : Nat) : (entryAt (columnParity a) x).getLsbD (z % 64) = parityBit a x z := by
  simp only [entryAt_columnParity, parityBit, BitVec.getLsbD_xor]

theorem laneAt_rho (a : Lanes) (x y : Fin 5) :
    laneAt (rho a) x.val y.val = rol (laneAt a x.val y.val) (rotTable.toList.getD (x.val + 5 * y.val) 0) := by
  have offset : rotTable[laneIndex x.val y.val] = rotTable.toList.getD (x.val + 5 * y.val) 0 := by decide +revert
  rw [laneAt_eq, rho_lane, offset, laneAt_eq]

theorem laneAt_pi (a : Lanes) (x y : Fin 5) : laneAt (pi a) y.val (2 * x.val + 3 * y.val) = laneAt a x.val y.val :=
  piMovesLanes.1 a x y

theorem iota_lane (a : Lanes) (ir : Fin 24) (i : Fin 25) :
    (iota a ir)[i] = if i = 0 then a[(0 : Fin 25)] ^^^ rcTable[ir] else a[i] := by
  by_cases first : i = 0
  · simp [iota, first]
  · have other : 0 ≠ i.val := fun same => first (Fin.ext same.symm)
    simp [iota, first, other]

theorem laneAt_iota (a : Lanes) (ir : Fin 24) (x y : Fin 5) :
    laneAt (iota a ir) x.val y.val = if x = 0 ∧ y = 0 then laneAt a 0 0 ^^^ rcTable[ir] else laneAt a x.val y.val := by
  have first : laneIndex x.val y.val = 0 ↔ x = 0 ∧ y = 0 := by decide +revert
  have origin : laneIndex 0 0 = 0 := rfl
  simp only [laneAt_eq, iota_lane, first, origin]

/-- Settles O31: each step's own equation on lanes, read at one bit. -/
theorem stepsBitByBit : Obligations.StepsBitByBit := by
  intro a x y z hz
  have whole : z % 64 = z := Nat.mod_eq_of_lt hz
  refine ⟨?theta, ?rho, ?pi, ?chi, fun ir => ?iota⟩
  case theta =>
    rw [laneAt_theta, entryAt_thetaMask, BitVec.getLsbD_xor, BitVec.getLsbD_xor, getLsbD_rol_one _ hz, getLsbD_columnParity,
      ← getLsbD_columnParity a (x.val + 4) z, whole, Bool.xor_assoc]
  case rho => rw [laneAt_rho, getLsbD_rol_add_mod _ _ hz]
  case pi => rw [laneAt_pi]
  case chi => simp [laneAt_chi, hz]
  case iota =>
    rw [laneAt_iota]
    split
    · rw [BitVec.getLsbD_xor]
    · rfl

/-- Settles O32. -/
theorem rhoPiIsOneRewiring : Obligations.RhoPiIsOneRewiring := fun a x y => by rw [laneAt_pi, laneAt_rho]

/-- Settles O34. -/
theorem localStepsAreBijections : Obligations.LocalStepsAreBijections :=
  ⟨rho_bijective, pi_bijective, chi_bijective, fun ir => (iota_involutive ir).bijective⟩

end Machine
end Sys2Proof
end

section
/-! PROOFS. ABSORB_BYTES (R142): the cursor and the number of blocks, what is stored where no block fills, and the pending bytes as the end
of what has been taken in. -/

namespace Sys2Proof
namespace Machine

/-- R142, one byte: the cursor counts modulo the block size, and a block is absorbed where it comes round. -/
theorem Engine.absorbByte_cur_draws {e : Engine} (inBlock : e.cur.toNat < blockSize e.dsel) (b : Byte) :
    (e.absorbByte b).cur.toNat = (e.cur.toNat + 1) % blockSize e.dsel ∧
    (e.absorbByte b).draws = e.draws + (e.cur.toNat + 1) / blockSize e.dsel := by
  rw [e.absorbByte_eq b inBlock]
  split
  · next full => simp [full, Nat.div_self (blockSize_pos e.dsel)]
  · next room =>
    have below : e.cur.toNat + 1 < blockSize e.dsel := by omega
    rw [e.putByte_cur_toNat b inBlock, Nat.mod_eq_of_lt below, Nat.div_eq_of_lt below]
    exact ⟨rfl, rfl⟩

/-- Settles O38, by induction on the bytes. -/
theorem absorbCursorAndBlockCount : Obligations.AbsorbCursorAndBlockCount := by
  intro e data inBlock
  induction data generalizing e with
  | nil => simp [Nat.mod_eq_of_lt inBlock, Nat.div_eq_of_lt inBlock]
  | cons b rest ih =>
    obtain ⟨cur, draws⟩ := Engine.absorbByte_cur_draws inBlock b
    obtain ⟨curRest, drawsRest⟩ := ih (e.absorbByte b) (Engine.absorbByte_cur_lt_blockSize inBlock b)
    have total : e.cur.toNat + (b :: rest).length = e.cur.toNat + 1 + rest.length := by
      rw [List.length_cons]
      omega
    have split : e.cur.toNat + 1 + rest.length = blockSize e.dsel * ((e.cur.toNat + 1) / blockSize e.dsel) +
        ((e.cur.toNat + 1) % blockSize e.dsel + rest.length) := by
      rw [← Nat.add_assoc, Nat.div_add_mod]
    rw [Engine.absorbBytes_cons, curRest, drawsRest, cur, draws, Engine.absorbByte_dsel, total, split, Nat.mul_add_mod,
      Nat.mul_add_div (blockSize_pos e.dsel), Nat.add_assoc]
    exact ⟨rfl, rfl⟩

/-- Where no block fills, the bytes are stored one after the other from the cursor on. -/
theorem Engine.absorbBytes_of_room {e : Engine} {data : List Byte} (room : e.cur.toNat + data.length < blockSize e.dsel) :
    (e.absorbBytes data).lanes = e.lanes ∧
    ∀ j, (e.absorbBytes data).buf.read j =
      if e.cur.toNat ≤ j ∧ j < e.cur.toNat + data.length then data.getD (j - e.cur.toNat) 0 else e.buf.read j := by
  induction data generalizing e with
  | nil => exact ⟨rfl, fun j => (if_neg (by simp)).symm⟩
  | cons b rest ih =>
    rw [List.length_cons] at room
    have inBlock : e.cur.toNat < blockSize e.dsel := by omega
    have buffered : e.absorbByte b = e.putByte b := by
      rw [e.absorbByte_eq b inBlock, if_neg (by omega)]
    have cur := e.putByte_cur_toNat b inBlock
    obtain ⟨lanes, read⟩ := ih (e := e.putByte b) (by rw [cur, Engine.putByte_dsel]; omega)
    rw [Engine.absorbBytes_cons, buffered]
    refine ⟨lanes, fun j => ?_⟩
    rw [read, cur, Engine.putByte_buf, Memory.read_write, List.length_cons]
    rcases Nat.lt_trichotomy j e.cur.toNat with below | atCursor | above
    · rw [if_neg (by omega), if_neg below.ne, if_neg (by omega)]
    · rw [if_neg (by omega), if_pos atCursor, if_pos (by omega), atCursor, Nat.sub_self, List.getD_cons_zero]
    · have next : j - e.cur.toNat = j - (e.cur.toNat + 1) + 1 := by omega
      have same : (e.cur.toNat + 1 ≤ j ∧ j < e.cur.toNat + 1 + rest.length) ↔
          e.cur.toNat ≤ j ∧ j < e.cur.toNat + (rest.length + 1) := by omega
      rw [if_neg above.ne', next, List.getD_cons_succ]
      simp only [same]

/-! The pending bytes -/

/-- `BUF[0 .. CUR-1]`, the bytes taken in since the last block absorption. -/
def Engine.pendingBytes (e : Engine) : List Byte := (List.range e.cur.toNat).map e.buf.read

@[simp] theorem Engine.length_pendingBytes (e : Engine) : e.pendingBytes.length = e.cur.toNat := by
  simp [Engine.pendingBytes]

theorem Engine.getD_pendingBytes {e : Engine} {j : Nat} (pending : j < e.cur.toNat) : e.pendingBytes.getD j 0 = e.buf.read j := by
  simp [Engine.pendingBytes, pending]

theorem Engine.pendingBytes_absorbBlock (e : Engine) : e.absorbBlock.pendingBytes = [] := by
  simp [Engine.pendingBytes]

theorem Engine.pendingBytes_putByte {e : Engine} (inBlock : e.cur.toNat < blockSize e.dsel) (b : Byte) :
    (e.putByte b).pendingBytes = e.pendingBytes ++ [b] := by
  have before : (List.range e.cur.toNat).map (e.putByte b).buf.read = e.pendingBytes :=
    List.map_congr_left fun j hj => by
      rw [Engine.putByte_buf, Memory.read_write_other _ _ (List.mem_range.mp hj).ne]
  rw [Engine.pendingBytes, e.putByte_cur_toNat b inBlock, List.range_succ, List.map_append, before]
  simp

/-- Whatever the number of blocks absorbed, the bytes pending at the end are the last ones taken in. -/
theorem Engine.pendingBytes_absorbBytes_isSuffix {e : Engine} (inBlock : e.cur.toNat < blockSize e.dsel) (data : List Byte) :
    (e.absorbBytes data).pendingBytes <:+ e.pendingBytes ++ data := by
  induction data generalizing e with
  | nil => simp
  | cons b rest ih =>
    have one : (e.absorbByte b).pendingBytes <:+ e.pendingBytes ++ [b] := by
      rw [← Engine.pendingBytes_putByte inBlock b]
      rcases e.absorbByte_cases b with ⟨_, full⟩ | ⟨_, buffered⟩
      · rw [full, Engine.pendingBytes_absorbBlock]
        exact List.nil_suffix
      · rw [buffered]
    have joined : e.pendingBytes ++ b :: rest = e.pendingBytes ++ [b] ++ rest := by simp
    rw [Engine.absorbBytes_cons, joined]
    exact (ih (Engine.absorbByte_cur_lt_blockSize inBlock b)).trans (List.suffix_append_self_iff.mpr one)

/-- Where a block fills, no byte that was pending before is pending afterwards. -/
theorem Engine.absorbBytes_cur_le_length_of_full {e : Engine} {data : List Byte} (inBlock : e.cur.toNat < blockSize e.dsel)
    (full : blockSize e.dsel ≤ e.cur.toNat + data.length) : (e.absorbBytes data).cur.toNat ≤ data.length := by
  rw [(absorbCursorAndBlockCount e data inBlock).1, Nat.mod_eq_sub_mod full]
  exact (Nat.mod_le _ _).trans (by omega)

theorem Engine.read_absorbBytes_of_full {e : Engine} {data : List Byte} {j : Nat} (inBlock : e.cur.toNat < blockSize e.dsel)
    (full : blockSize e.dsel ≤ e.cur.toNat + data.length) (pending : j < (e.absorbBytes data).cur.toNat) :
    (e.absorbBytes data).buf.read j = data.getD (data.length - (e.absorbBytes data).cur.toNat + j) 0 := by
  have last : (e.absorbBytes data).pendingBytes <:+ data :=
    List.suffix_of_suffix_length_le (Engine.pendingBytes_absorbBytes_isSuffix inBlock data) (List.suffix_append _ _)
      (by simpa using Engine.absorbBytes_cur_le_length_of_full inBlock full)
  have taken := List.suffix_iff_eq_drop.mp last
  calc (e.absorbBytes data).buf.read j
    _ = (e.absorbBytes data).pendingBytes.getD j 0 := (Engine.getD_pendingBytes pending).symm
    _ = (data.drop (data.length - (e.absorbBytes data).pendingBytes.length)).getD j 0 := by rw [← taken]
    _ = data.getD (data.length - (e.absorbBytes data).cur.toNat + j) 0 := by simp [List.getD_eq_getElem?_getD]

end Machine
end Sys2Proof
end

section
/-! PROOFS. Frames (R141, R142, R170 to R175): what UPDATE stores and leaves, and what the other commands leave. -/

namespace Sys2Proof
namespace Machine

/-- A completed UPDATE has raised an error, or it has absorbed its bytes. -/
theorem execUpdate_next_cases {offset length : BitVec 14} {payload : List Word} {s t : State}
    (run : exec (.update offset length payload) s = .next t) :
    (∃ error, error ≠ .ok ∧ t = s.raise error) ∨
    t = s.succeed { s.engine.absorbBytes (selectedBytes offset length payload) with phase := .updating } [] := by
  rcases execUpdate_cases offset length payload s with
    ⟨_, rejects⟩ | ⟨_, _, rejects⟩ | ⟨_, _, _, absorbs⟩ | ⟨_, _, _, _, faults⟩
  · cases rejects.symm.trans run
    exact .inl ⟨_, by decide, rfl⟩
  · cases rejects.symm.trans run
    exact .inl ⟨_, by decide, rfl⟩
  · cases absorbs.symm.trans run
    exact .inr rfl
  · cases faults.symm.trans run

theorem execUpdate_of_lastErr_ok {offset length : BitVec 14} {payload : List Word} {s t : State}
    (run : exec (.update offset length payload) s = .next t) (ok : t.engine.lastErr = .ok) :
    t = s.succeed { s.engine.absorbBytes (selectedBytes offset length payload) with phase := .updating } [] := by
  rcases execUpdate_next_cases run with ⟨error, failed, rfl⟩ | success
  · exact absurd ok failed
  · exact success

theorem getD_selectedBytes {offset length : BitVec 14} (payload : List Word) {k : Nat} (hk : k < length.toNat) :
    (selectedBytes offset length payload).getD k 0 = payloadByte payload (offset.toNat + k) := by
  simp [selectedBytes, hk]

/-- A transaction adds one response and leaves the channel: the part of the frame that every command shares. -/
theorem exec_keeps_channel_and_responses {i : Instr} {s t : State} (run : exec i s = .next t) :
    t.channel = s.channel ∧ t.responses.dropLast = s.responses := by
  obtain ⟨_, answered⟩ := exec_answeredOnce run
  obtain ⟨_, response⟩ := answered.response
  exact ⟨answered.channel, by rw [response, List.dropLast_concat]⟩

/-- Settles O39: a failure is an error raised; a success is ABSORB_BYTES on the selected bytes, with room for them or with a block that
fills. -/
theorem updateFrame : Obligations.UpdateFrame := by
  intro s t offset length payload inBlock run
  obtain ⟨channel, responses⟩ := exec_keeps_channel_and_responses run
  refine ⟨execUpdate_dsel run, channel, responses, fun failed => ?failed, fun ok room => ?room, fun ok full => ?full⟩
  case failed =>
    rcases execUpdate_next_cases run with ⟨error, _, rfl⟩ | rfl
    · exact ⟨rfl, rfl, rfl, rfl⟩
    · exact absurd rfl failed
  case room =>
    obtain rfl := execUpdate_of_lastErr_ok run ok
    rw [← selectedBytes_length offset length payload] at room
    obtain ⟨lanes, read⟩ := Engine.absorbBytes_of_room room
    refine ⟨lanes, fun j => ?_⟩
    rw [State.succeed_engine, read, selectedBytes_length]
    split
    · next stored => rw [getD_selectedBytes payload (by omega)]
    · rfl
  case full =>
    obtain rfl := execUpdate_of_lastErr_ok run ok
    intro j pending
    rw [← selectedBytes_length offset length payload] at full
    have fewer := Engine.absorbBytes_cur_le_length_of_full inBlock full
    have read := Engine.read_absorbBytes_of_full inBlock full pending
    simp only [State.succeed_engine] at pending ⊢
    rw [selectedBytes_length] at fewer read
    rw [read, getD_selectedBytes payload (by omega)]
    congr 1
    omega

/-- NEW clears the engine or raises an error. -/
theorem execNew_buffer {dsize : BitVec 10} {s t : State} (run : exec (.new dsize) s = .next t) :
    if t.engine.lastErr = .ok then ∀ j, t.engine.buf.read j = 0 else t.engine = { s.engine with lastErr := t.engine.lastErr } := by
  rcases execNew_cases dsize s with ⟨_, rejects⟩ | ⟨d, _, constructs⟩
  · cases rejects.symm.trans run
    exact rfl
  · cases constructs.symm.trans run
    exact Memory.read_zero

theorem execReset_buffer {s t : State} (run : exec .reset s = .next t) :
    if t.engine.lastErr = .ok then ∀ j, t.engine.buf.read j = 0 else t.engine = { s.engine with lastErr := t.engine.lastErr } := by
  rcases execReset_cases s with ⟨_, rejects⟩ | ⟨_, clears⟩
  · cases rejects.symm.trans run
    exact rfl
  · cases clears.symm.trans run
    exact Memory.read_zero

theorem execFinalize_of_lastErr_ne_ok {s t : State} (run : exec .finalize s = .next t) (failed : t.engine.lastErr ≠ .ok) :
    t.engine = { s.engine with lastErr := t.engine.lastErr } := by
  rcases execFinalize_cases s with ⟨_, rejects⟩ | ⟨_, _, digests⟩ | ⟨_, _, faults⟩
  · cases rejects.symm.trans run
    rfl
  · cases digests.symm.trans run
    exact absurd rfl failed
  · cases faults.symm.trans run

/-- Settles O40. -/
theorem otherCommandsFrame : Obligations.OtherCommandsFrame := by
  refine fun s t => ⟨fun dsize run => ?new, fun run => ?reset, fun run => ?finalize, fun run => ?status⟩ <;>
    obtain ⟨channel, responses⟩ := exec_keeps_channel_and_responses run
  case new => exact ⟨channel, responses, execNew_buffer run⟩
  case reset => exact ⟨channel, responses, execReset_dsel run, execReset_buffer run⟩
  case finalize => exact ⟨channel, responses, execFinalize_dsel run, execFinalize_of_lastErr_ne_ok run⟩
  case status =>
    cases run
    exact ⟨channel, responses, rfl⟩

/-- Settles O5: no byte is absorbed, and where a later UPDATE succeeds it has set the phase. -/
theorem emptyUpdateOnlyMovesPhase : Obligations.EmptyUpdateOnlyMovesPhase := by
  refine ⟨fun s offset payload phase range => ?empty, fun s t offset length payload run ok => ?success⟩
  case empty => exact execUpdate_of_accepted ((Phase.acceptsData_iff _).mpr phase) ((rangeOk_iff _ _ _).mpr range) (.inl rfl)
  case success => rw [execUpdate_of_lastErr_ok run ok, State.succeed_engine]

end Machine
end Sys2Proof
end

section
/-! PROOFS. Reset (R36, R174, R179, R220): hardware reset, NEW and RESET, and an engine that no NEW has configured (R222). -/

namespace Sys2Proof
namespace Machine

theorem zeroLanes_lane (i : Fin 25) : zeroLanes[i] = 0 := by simp [zeroLanes]

/-- Settles O1: hardware reset as it stands, NEW and RESET by the state in which each completes. -/
theorem resetValuesOfEveryField : Obligations.ResetValuesOfEveryField := by
  refine ⟨⟨zeroLanes_lane, fun j _ => Memory.read_zero j, rfl, rfl, rfl, rfl⟩, fun s d => ?new, fun s configured => ?reset⟩
  case new =>
    exact ⟨_, exec_new_digestBits d s, zeroLanes_lane, fun j _ => Memory.read_zero j, rfl, rfl, rfl, rfl⟩
  case reset =>
    exact ⟨_, execReset_of_configured configured, zeroLanes_lane, fun j _ => Memory.read_zero j, rfl, rfl, rfl, rfl⟩

/-- Settles O2. -/
theorem hardwareResetAgainstResetCommand : Obligations.HardwareResetAgainstResetCommand := by
  refine fun s => ⟨⟨rfl, rfl, rfl, Memory.read_zero, rfl, rfl⟩, ⟨rfl, rfl, rfl⟩, fun configured => ?_⟩
  exact ⟨_, execReset_of_configured configured, rfl, rfl, rfl, Memory.read_zero, rfl, rfl⟩

/-- Settles O44: both clear the engine and go to `Created`, and the selector NEW writes is the one already there. -/
theorem resetActsAsNewOfTheSameSize : Obligations.ResetActsAsNewOfTheSameSize := fun s configured =>
  ⟨_, execReset_of_configured configured, exec_new_digestBits s.engine.dsel s⟩

/-- R222, one command: in `Unconfigured` it raises an error or is a STATUS. -/
theorem exec_of_unconfigured {s : State} (unconfigured : s.engine.phase = .unconfigured) {i : Instr}
    (notNew : ∀ dsize, i ≠ .new dsize) :
    ∃ t, exec i s = .next t ∧ t.engine = { s.engine with lastErr := t.engine.lastErr } ∧
      t.responses.length = s.responses.length + 1 := by
  have noData : s.engine.phase.acceptsData = false := (Phase.acceptsData_eq_false_iff _).mpr (.inl unconfigured)
  have raised (error : Status) : (s.raise error).engine = { s.engine with lastErr := (s.raise error).engine.lastErr } ∧
      (s.raise error).responses.length = s.responses.length + 1 := ⟨rfl, by simp⟩
  cases i with
  | new dsize => exact absurd rfl (notNew dsize)
  | update offset length payload => exact ⟨_, execUpdate_of_wrong_phase noData _ _ _, raised _⟩
  | finalize => exact ⟨_, execFinalize_of_wrong_phase noData, raised _⟩
  | reset => exact ⟨_, execReset_of_unconfigured unconfigured, raised _⟩
  | status => exact ⟨_, rfl, rfl, by simp⟩

/-- Settles O18, by induction on the commands: each leaves the phase, so the next one meets `Unconfigured` again. -/
theorem nothingButNewConfigures : Obligations.NothingButNewConfigures := by
  intro s commands unconfigured noNew
  induction commands generalizing s with
  | nil => exact ⟨s, rfl, rfl, rfl⟩
  | cons i rest ih =>
    obtain ⟨s', run, engine', answers'⟩ := exec_of_unconfigured unconfigured (i := i) fun dsize isNew =>
      noNew dsize (isNew ▸ List.mem_cons_self)
    have unconfigured' : s'.engine.phase = .unconfigured := by rw [engine', unconfigured]
    obtain ⟨t, runs, engine, answers⟩ := ih s' unconfigured' fun dsize mem => noNew dsize (List.mem_cons_of_mem _ mem)
    refine ⟨t, (execAll_cons_of_next run rest).trans runs, ?_, ?_⟩
    · calc t.engine
        _ = { s'.engine with lastErr := t.engine.lastErr } := engine
        _ = { s.engine with lastErr := t.engine.lastErr } := by rw [engine']
    · rw [answers, answers', List.length_cons]
      omega

end Machine
end Sys2Proof
end

section
/-! PROOFS. Streaming (R152): ABSORB_BYTES neither reads nor writes the phase and `LASTERR`, so two UPDATEs absorb as one. -/

namespace Sys2Proof
namespace Machine

/-- The engine with the two registers that the commands write and the sponge does not use. -/
def Engine.withStatus (e : Engine) (phase : Phase) (code : Status) : Engine := { e with phase := phase, lastErr := code }

theorem Engine.absorbBlock_withStatus (e : Engine) (phase : Phase) (code : Status) :
    (e.withStatus phase code).absorbBlock = e.absorbBlock.withStatus phase code := by
  simp only [Engine.absorbBlock, Engine.xorBlock, Engine.withStatus]

theorem Engine.absorbByte_withStatus (e : Engine) (phase : Phase) (code : Status) (b : Byte) :
    (e.withStatus phase code).absorbByte b = (e.absorbByte b).withStatus phase code := by
  have put : (e.withStatus phase code).putByte b = (e.putByte b).withStatus phase code := rfl
  unfold Engine.absorbByte
  rw [put, Engine.absorbBlock_withStatus]
  exact (apply_ite (fun f : Engine => f.withStatus phase code) _ _ _).symm

theorem Engine.absorbBytes_withStatus (e : Engine) (phase : Phase) (code : Status) (data : List Byte) :
    (e.withStatus phase code).absorbBytes data = (e.absorbBytes data).withStatus phase code := by
  induction data generalizing e with
  | nil => rfl
  | cons b rest ih => rw [Engine.absorbBytes_cons, Engine.absorbByte_withStatus, ih, Engine.absorbBytes_cons]

theorem UpdateArgs.engine_of_lastErr_ok {u : UpdateArgs} {s t : State} (run : exec u.instr s = .next t)
    (ok : t.engine.lastErr = .ok) : t.engine = (s.engine.absorbBytes u.data).withStatus .updating .ok := by
  rw [execUpdate_of_lastErr_ok run ok]
  rfl

/-- What FINALIZE answers, by the engine it finds (R173). -/
def Engine.finalizeResponse (e : Engine) : Response :=
  if e.phase.acceptsData then 0 :: digestWords (e.absorbFinal padByte).squeeze else [2]

theorem execFinalize_responses {s t : State} (run : exec .finalize s = .next t) :
    t.responses = s.responses ++ [s.engine.finalizeResponse] := by
  rcases execFinalize_cases s with ⟨phase, rejects⟩ | ⟨phase, _, digests⟩ | ⟨_, _, faults⟩
  · cases rejects.symm.trans run
    simp [Engine.finalizeResponse, phase, Status.code]
  · cases digests.symm.trans run
    simp [Engine.finalizeResponse, phase]
  · cases faults.symm.trans run

/-- Settles O41. -/
theorem streamingEquivalence : Obligations.StreamingEquivalence := by
  intro s s1 s2 s' u1 u2 u bytes run1 run2 run ok1 ok2 ok
  have same : s2.engine = s'.engine := by
    rw [UpdateArgs.engine_of_lastErr_ok run2 ok2, UpdateArgs.engine_of_lastErr_ok run1 ok1, UpdateArgs.engine_of_lastErr_ok run ok,
      Engine.absorbBytes_withStatus, bytes, Engine.absorbBytes_append]
    rfl
  refine ⟨same, fun t2 t' digests2 digests' => ⟨s'.engine.finalizeResponse, ?_, execFinalize_responses digests'⟩⟩
  rw [← same]
  exact execFinalize_responses digests2

end Machine
end Sys2Proof
end

section
/-! PROOFS. The reference hash (R146, R151): absorbing from any engine is absorbing the blocks of the padded message, the bytes already
pending standing first. -/

namespace Sys2Proof
namespace Machine

/-! Padding -/

/-- The bytes that complete a block with `room` bytes left, as `paddedMessage` appends them. -/
def paddingBytes (first : Byte) (room : Nat) : List Byte :=
  if room = 1 then [first ||| 0x80] else first :: List.replicate (room - 2) 0 ++ [0x80]

theorem paddedMessage_eq_append (first : Byte) (bs : Nat) (m : List Byte) :
    paddedMessage first bs m = m ++ paddingBytes first (bs - m.length % bs) := rfl

theorem length_paddingBytes (first : Byte) {room : Nat} (positive : 0 < room) : (paddingBytes first room).length = room := by
  unfold paddingBytes
  split
  · next one => exact one.symm
  · rw [List.length_append, List.length_cons, List.length_replicate, List.length_singleton]
    omega

/-- R146, byte by byte: the first and the last byte are the same one where one byte is left. -/
theorem getD_paddingBytes (first : Byte) {room k : Nat} (hk : k < room) :
    (paddingBytes first room).getD k 0 = (if k = 0 then first else 0) ||| (if k = room - 1 then 0x80 else 0) := by
  unfold paddingBytes
  split
  · next one =>
    obtain rfl : k = 0 := by omega
    simp [one]
  · next more =>
    cases k with
    | zero =>
      have notLast : 0 ≠ room - 1 := by omega
      simp [notLast]
    | succ k =>
      have unmarked (b : Byte) : 0 ||| b = b := BitVec.zero_or
      rw [List.cons_append, List.getD_cons_succ, if_neg k.succ_ne_zero, unmarked]
      by_cases last : k + 1 = room - 1
      · have place : k = (List.replicate (room - 2) (0 : Byte)).length := by
          rw [List.length_replicate]
          omega
        rw [if_pos last, List.getD_append_right _ _ _ _ place.ge, ← place, Nat.sub_self, List.getD_cons_zero]
      · have inside : k < (List.replicate (room - 2) (0 : Byte)).length := by
          rw [List.length_replicate]
          omega
        rw [if_neg last, List.getD_append _ _ _ _ inside, List.getD_eq_getElem _ _ inside, List.getElem_replicate]

/-- The padding depends on the length of the last, incomplete block alone. -/
theorem paddedMessage_append {bs : Nat} {block : List Byte} (first : Byte) (whole : block.length = bs) (m : List Byte) :
    paddedMessage first bs (block ++ m) = block ++ paddedMessage first bs m := by
  rw [paddedMessage_eq_append, paddedMessage_eq_append, List.length_append, whole, Nat.add_mod_left, List.append_assoc]

theorem length_paddedMessage {bs : Nat} {m : List Byte} (first : Byte) (short : m.length < bs) :
    (paddedMessage first bs m).length = bs := by
  rw [paddedMessage_eq_append, List.length_append, Nat.mod_eq_of_lt short, length_paddingBytes first (by omega)]
  omega

/-- The padding of the pending bytes is the block PAD completes. -/
theorem getD_paddedMessage_pendingBytes {e : Engine} (first : Byte) (inBlock : e.cur.toNat < blockSize e.dsel) {j : Nat}
    (hj : j < blockSize e.dsel) :
    (paddedMessage first (blockSize e.dsel) e.pendingBytes).getD j 0 = finalBlockByte first e j := by
  rw [paddedMessage_eq_append, Engine.length_pendingBytes, Nat.mod_eq_of_lt inBlock, finalBlockByte]
  by_cases pending : j < e.cur.toNat
  · have notLast : j ≠ blockSize e.dsel - 1 := by omega
    rw [List.getD_append _ _ _ _ (by simpa using pending), Engine.getD_pendingBytes pending, if_pos pending, if_neg notLast]
    exact BitVec.or_zero.symm
  · have atCursor : j - e.cur.toNat = 0 ↔ j = e.cur.toNat := by omega
    have last : j - e.cur.toNat = blockSize e.dsel - e.cur.toNat - 1 ↔ j = blockSize e.dsel - 1 := by omega
    rw [List.getD_append_right _ _ _ _ (by simpa using pending), Engine.length_pendingBytes, getD_paddingBytes first (by omega),
      if_neg pending]
    simp only [atCursor, last]

/-! Blocks -/

theorem xorBytes_lane (a : Lanes) (block : List Byte) (i : Fin 25) :
    (xorBytes a block)[i] =
      if i.val < block.length / 8 then a[i] ^^^ laneOfBytes (fun j => block.getD j 0) i.val else a[i] := by
  have inside : 8 * i.val + 8 ≤ block.length ↔ i.val < block.length / 8 := by omega
  simp only [xorBytes, Fin.getElem_fin, Vector.getElem_ofFn, inside, memRead_eq_toNat_laneOfBytes, BitVec.ofNat_toNat,
    BitVec.setWidth_eq]

theorem Engine.xorBlock_lanes_eq_xorBytes {e : Engine} {block : List Byte} (whole : block.length = blockSize e.dsel)
    (bytes : ∀ j < blockSize e.dsel, e.buf.read j = block.getD j 0) : e.xorBlock.lanes = xorBytes e.lanes block := by
  refine lanes_ext fun i => ?_
  rw [Engine.xorBlock_lane_laneOfBytes, xorBytes_lane, whole]
  split
  · next inside => rw [laneOfBytes_congr bytes inside]
  · rfl

theorem Engine.absorbFinal_lanes_eq_xorBytes {e : Engine} (first : Byte) (inBlock : e.cur.toNat < blockSize e.dsel) :
    (e.absorbFinal first).lanes =
      keccakF (xorBytes e.lanes (paddedMessage first (blockSize e.dsel) e.pendingBytes)) := by
  have whole : (paddedMessage first (blockSize e.dsel) e.pendingBytes).length = blockSize (e.pad first).dsel :=
    length_paddedMessage first (by rwa [Engine.length_pendingBytes])
  rw [Engine.absorbFinal_lanes, Engine.xorBlock_lanes_eq_xorBytes whole fun j hj => ?_, Engine.pad_lanes]
  rw [Engine.pad_dsel] at hj
  rw [e.read_pad first j inBlock, if_pos hj, getD_paddedMessage_pendingBytes first inBlock hj]

/-- The byte that fills the block: the pending bytes and it are the block that is absorbed. -/
theorem Engine.absorbByte_lanes_of_full {e : Engine} (full : e.cur.toNat + 1 = blockSize e.dsel) (b : Byte) :
    (e.absorbByte b).lanes = keccakF (xorBytes e.lanes (e.pendingBytes ++ [b])) := by
  have inBlock : e.cur.toNat < blockSize e.dsel := by omega
  have whole : (e.putByte b).pendingBytes.length = blockSize (e.putByte b).dsel := by
    rw [Engine.length_pendingBytes, e.putByte_cur_toNat b inBlock, full, Engine.putByte_dsel]
  rw [e.absorbByte_eq b inBlock, if_pos full, Engine.absorbBlock_lanes, ← Engine.pendingBytes_putByte inBlock,
    Engine.xorBlock_lanes_eq_xorBytes whole fun j hj => ?_, Engine.putByte_lanes]
  rw [← whole, Engine.length_pendingBytes] at hj
  exact (Engine.getD_pendingBytes hj).symm

theorem absorbBlocks_append (bs n : Nat) {block : List Byte} (whole : block.length = bs) (m : List Byte) (a : Lanes) :
    absorbBlocks bs (n + 1) (block ++ m) a = absorbBlocks bs n m (keccakF (xorBytes a block)) := by
  rw [absorbBlocks, ← whole, List.drop_left, List.take_left]

/-- The sponge against the blocks, by induction on the bytes: a byte that fills the block absorbs one block of the message, and any other
joins the pending ones. -/
theorem Engine.absorbFinal_absorbBytes_lanes {e : Engine} (first : Byte) (inBlock : e.cur.toNat < blockSize e.dsel) (data : List Byte) :
    ((e.absorbBytes data).absorbFinal first).lanes =
      absorbBlocks (blockSize e.dsel) ((e.cur.toNat + data.length) / blockSize e.dsel + 1)
        (paddedMessage first (blockSize e.dsel) (e.pendingBytes ++ data)) e.lanes := by
  induction data generalizing e with
  | nil =>
    have whole := length_paddedMessage first (m := e.pendingBytes) (by rwa [Engine.length_pendingBytes])
    have one := absorbBlocks_append (blockSize e.dsel) 0 whole [] e.lanes
    rw [List.append_nil] at one
    have noBlock : (e.cur.toNat + ([] : List Byte).length) / blockSize e.dsel = 0 := Nat.div_eq_of_lt inBlock
    rw [Engine.absorbBytes_nil, Engine.absorbFinal_lanes_eq_xorBytes first inBlock, List.append_nil, noBlock, one, absorbBlocks]
  | cons b rest ih =>
    have next := ih (Engine.absorbByte_cur_lt_blockSize inBlock b)
    rw [Engine.absorbBytes_cons, next, Engine.absorbByte_dsel]
    by_cases full : e.cur.toNat + 1 = blockSize e.dsel
    · have absorbed : e.absorbByte b = (e.putByte b).absorbBlock := by rw [e.absorbByte_eq b inBlock, if_pos full]
      have whole : (e.pendingBytes ++ [b]).length = blockSize e.dsel := by simpa using full
      have message : e.pendingBytes ++ b :: rest = (e.pendingBytes ++ [b]) ++ rest := by simp
      have blocks : (e.cur.toNat + (b :: rest).length) / blockSize e.dsel = rest.length / blockSize e.dsel + 1 := by
        rw [List.length_cons, Nat.add_comm rest.length, ← Nat.add_assoc, full, Nat.add_div_left _ (blockSize_pos e.dsel)]
      have cur : (e.absorbByte b).cur.toNat = 0 := by simp [absorbed]
      have pending : (e.absorbByte b).pendingBytes = [] := by rw [absorbed, Engine.pendingBytes_absorbBlock]
      rw [cur, pending, Engine.absorbByte_lanes_of_full full, Nat.zero_add, List.nil_append, blocks, message,
        paddedMessage_append first whole, absorbBlocks_append _ _ whole]
    · have buffered : e.absorbByte b = e.putByte b := by rw [e.absorbByte_eq b inBlock, if_neg full]
      have length : e.cur.toNat + 1 + rest.length = e.cur.toNat + (b :: rest).length := by
        rw [List.length_cons]
        omega
      rw [buffered, e.putByte_cur_toNat b inBlock, Engine.pendingBytes_putByte inBlock, Engine.putByte_lanes, length,
        List.append_assoc, List.singleton_append]

theorem Engine.hash_eq_spongeHash (d : DigestSel) (data : List Byte) : Engine.hash d data = spongeHash padByte d data := by
  have inBlock : (Engine.fresh d).cur.toNat < blockSize (Engine.fresh d).dsel := blockSize_pos d
  have nothingPending : (Engine.fresh d).pendingBytes = [] := rfl
  have cur : (Engine.fresh d).cur.toNat = 0 := rfl
  rw [Engine.hash, Engine.squeeze, Engine.absorbFinal_absorbBytes_lanes padByte inBlock, nothingPending, cur, Nat.zero_add,
    List.nil_append, Engine.absorbFinal_dsel, Engine.absorbBytes_dsel]
  rfl

/-- Settles O42. -/
theorem digestIsTheReferenceHash : Obligations.DigestIsTheReferenceHash := by
  intro s d us inRange
  obtain ⟨t, run, answers⟩ := execAll_hash s d inRange
  refine ⟨t, run, ?_⟩
  rw [answers, Engine.hash_eq_spongeHash]
  rfl

end Machine
end Sys2Proof
end
